-- ==== Sys2Proof/Word.lean ====
section
/-! DEFINITION. The widths the machine computes with (00_scope.md R6, R10, R11; 10_state.md R31). Every value is an
unsigned bit pattern; bit 0 is the least significant. -/

namespace Sys2Proof

/-- A memory word, and the registers AC, DR and IR: 16 bits (R6 `WORD_BITS`). -/
abbrev Word := BitVec 16

/-- A word address, and the registers AR and PC: 12 bits (R6 `ADDR_BITS`). DEDUCED, safe, log 27: the source
gives widths by class. -/
abbrev Addr := BitVec 12

/-- The select field `IR[11:0]` of a word with D = 7 (30_encoding.md R90). -/
abbrev SelField := BitVec 12

/-- A one-bit register: E, I, S (R6 `FLAG_BITS`). -/
abbrev Bit := BitVec 1

/-- The sequence counter, and the opcode field D: 3 bits (R6 `SC_BITS`, R90). -/
abbrev Bits3 := BitVec 3

end Sys2Proof
end

