-- ==== Sys2Proof/Config.lean ====
section
/-! DEFINITION. What is fixed for the machine: the constants of 00_scope.md R6 and the parameters of R7 with the
defaults the spec decided. None of it is state (10_state.md R47). -/

namespace Sys2Proof.Config

/-- Memory capacity in words (R6 `MEM_WORDS`). -/
def memWords : Nat := 4096

/-- What a control-unit read of a never-written cell does (R7, 20_memory.md R64). -/
inductive UnsetPolicy where
  /-- The micro-step raises `UninitializedRead`. -/
  | fault
  /-- The read returns 0x0000 and the cell stays unset. -/
  | zero
deriving DecidableEq, Repr

/-- `UNSET_POLICY`. DESIGN CHOICE, safe, log 4: the spec's default (decision D1). The table of Machine/Schedule.lean
takes the policy as an argument. -/
def unsetPolicy : UnsetPolicy := .fault

/-- `RESET_VALUE(r)` for the registers whose value at construction the source leaves open (R7, 10_state.md R44). -/
structure ResetValues where
  ar : Addr
  dr : Word
  ac : Word
  ir : Word
  indFlag : Bit
  e : Bit
deriving DecidableEq, Repr

/-- DESIGN CHOICE, unsafe, log 2: the spec's default is 0 for every one of them (decision D3). -/
def resetValues : ResetValues := { ar := 0, dr := 0, ac := 0, ir := 0, indFlag := 0, e := 0 }

/-- `STEP_BUDGET`, none by default (R7, decision D17): it bounds a runner, never the machine. -/
def stepBudget : Option Nat := none

end Sys2Proof.Config
end

