-- ==== Sys2Proof/Syntax.lean ====
section
/-! DEFINITION. The instruction set: one constructor per row of spec/opcode_table.json (30_encoding.md R92, R94, R96,
R97, R104). -/

namespace Sys2Proof

/-- The two addressing modes of a memory-reference word, told apart by bit 15 (41_memory_reference.md R140). -/
inductive AddrMode where
  | direct
  | indirect
deriving DecidableEq, Repr

/-- One instruction. A memory-reference instruction carries its mode and its 12-bit address field. A register-reference
or input-output instruction carries the select bits BELOW its own select bit: the priority decode ignores them
(R95, R173), and keeping them makes an instruction and its word two views of one thing (DESIGN CHOICE, safe, log 17). -/
inductive Instr where
  | and (mode : AddrMode) (addr : Addr)
  | add (mode : AddrMode) (addr : Addr)
  | lda (mode : AddrMode) (addr : Addr)
  | sta (mode : AddrMode) (addr : Addr)
  | bun (mode : AddrMode) (addr : Addr)
  | bsa (mode : AddrMode) (addr : Addr)
  | isz (mode : AddrMode) (addr : Addr)
  | cla (low : SelField)
  | cle (low : SelField)
  | cma (low : SelField)
  | cme (low : SelField)
  | cir (low : SelField)
  | cil (low : SelField)
  | inc (low : SelField)
  | spa (low : SelField)
  | sna (low : SelField)
  | sza (low : SelField)
  | sze (low : SelField)
  | hlt
  | rriNone
  | inp (low : SelField)
  | out (low : SelField)
  | ski (low : SelField)
  | sko (low : SelField)
  | ion (low : SelField)
  | iof (low : SelField)
  | ioNone (low : SelField)
deriving DecidableEq, Repr

end Sys2Proof
end

