-- ==== Sys2Proof/WellFormed.lean ====
section
/-! DEFINITION. Which instructions have a word: the ignored select bits lie below the row's own select bit
(30_encoding.md R94, R95, R97). -/

namespace Sys2Proof

/-- The field holds no bit at or above bit `k`. -/
def SelField.below (low : SelField) (k : Nat) : Bool := decide (low.toNat < 2 ^ k)

/-- Every memory-reference instruction is well formed (R101); a register-reference or input-output instruction is when
its carried bits lie below its select bit, and IO_NONE's are the six bits below 0x040. -/
def Instr.wellFormed : Instr → Bool
  | .and _ _ | .add _ _ | .lda _ _ | .sta _ _ | .bun _ _ | .bsa _ _ | .isz _ _ => true
  | .cla low | .inp low => SelField.below low 11
  | .cle low | .out low => SelField.below low 10
  | .cma low | .ski low => SelField.below low 9
  | .cme low | .sko low => SelField.below low 8
  | .cir low | .ion low => SelField.below low 7
  | .cil low | .iof low | .ioNone low => SelField.below low 6
  | .inc low => SelField.below low 5
  | .spa low => SelField.below low 4
  | .sna low => SelField.below low 3
  | .sza low => SelField.below low 2
  | .sze low => SelField.below low 1
  | .hlt | .rriNone => true

end Sys2Proof
end

