-- ==== Sys2Proof/Decode.lean ====
section
/-! DEFINITION. The decoder, total on all 65536 words (30_encoding.md R90 to R101), the encoder written from the same
tables, and the opcode table of R104 as data. -/

namespace Sys2Proof

/-! ### Fields of a word (R90; 10_state.md R38) -/

/-- `Ibit = w[15]`. -/
def ibitOf (w : Word) : Bit := w.extractLsb' 15 1

/-- `D = w[14:12]`. -/
def opcodeOf (w : Word) : Bits3 := w.extractLsb' 12 3

/-- `ADDR = w[11:0]`, or `SEL` when D = 7. -/
def addrOf (w : Word) : Addr := w.extractLsb' 0 12

/-- Bit 15 as an addressing mode (R93). -/
def modeOf (b : Bit) : AddrMode := if b = 1 then .indirect else .direct

/-- The bits of `sel` below bit `k`. -/
def lowBits (k : Nat) (sel : SelField) : SelField := sel &&& BitVec.ofNat 12 (2 ^ k - 1)

/-! ### Decoding -/

/-- Priority decode of the register-reference select field: the highest set bit's operation, alone (R95, R160); no bit
set is the row RRI_NONE (R96). -/
def decodeRegRef (sel : SelField) : Instr :=
  if sel.getLsbD 11 then .cla (lowBits 11 sel)
  else if sel.getLsbD 10 then .cle (lowBits 10 sel)
  else if sel.getLsbD 9 then .cma (lowBits 9 sel)
  else if sel.getLsbD 8 then .cme (lowBits 8 sel)
  else if sel.getLsbD 7 then .cir (lowBits 7 sel)
  else if sel.getLsbD 6 then .cil (lowBits 6 sel)
  else if sel.getLsbD 5 then .inc (lowBits 5 sel)
  else if sel.getLsbD 4 then .spa (lowBits 4 sel)
  else if sel.getLsbD 3 then .sna (lowBits 3 sel)
  else if sel.getLsbD 2 then .sza (lowBits 2 sel)
  else if sel.getLsbD 1 then .sze (lowBits 1 sel)
  else if sel.getLsbD 0 then .hlt
  else .rriNone

/-- The same priority for the input-output group (R97); the words 0xF000..0xF03F are the row IO_NONE. -/
def decodeInOut (sel : SelField) : Instr :=
  if sel.getLsbD 11 then .inp (lowBits 11 sel)
  else if sel.getLsbD 10 then .out (lowBits 10 sel)
  else if sel.getLsbD 9 then .ski (lowBits 9 sel)
  else if sel.getLsbD 8 then .sko (lowBits 8 sel)
  else if sel.getLsbD 7 then .ion (lowBits 7 sel)
  else if sel.getLsbD 6 then .iof (lowBits 6 sel)
  else .ioNone (lowBits 6 sel)

/-- The instruction of a word (R91, R92): the classes partition all words, so none is refused (R99, R100). -/
def decode (w : Word) : Instr :=
  let mode := modeOf (ibitOf w)
  let addr := addrOf w
  if opcodeOf w = 0 then .and mode addr
  else if opcodeOf w = 1 then .add mode addr
  else if opcodeOf w = 2 then .lda mode addr
  else if opcodeOf w = 3 then .sta mode addr
  else if opcodeOf w = 4 then .bun mode addr
  else if opcodeOf w = 5 then .bsa mode addr
  else if opcodeOf w = 6 then .isz mode addr
  else if ibitOf w = 0 then decodeRegRef addr
  else decodeInOut addr

/-- Why a string of bits is no instruction: every instruction is exactly one 16-bit word (R90). -/
inductive DecodeRejection where
  /-- More bits than one word holds. -/
  | longerThanOneWord
  /-- The number does not fit the bits it is said to have. -/
  | valueOutOfRange
deriving DecidableEq, Repr

/-- Decoding of a number of `nbits` bits; bits of the word above `nbits` are 0 (log 34). -/
def decodeBits (nbits w : Nat) : Except DecodeRejection Instr :=
  if 16 < nbits then .error .longerThanOneWord
  else if 2 ^ nbits ≤ w then .error .valueOutOfRange
  else .ok (decode (BitVec.ofNat 16 w))

/-- The host's entry to the decoder: `none` where `decodeBits` rejects. -/
def decodeTableWord (nbits w : Nat) : Option Instr :=
  match decodeBits nbits w with
  | .ok i => some i
  | .error _ => none

/-! ### Encoding -/

/-- The word of the three fields of R90. -/
def joinWord (ibit : Bit) (d : Bits3) (field : BitVec 12) : Word := ibit ++ d ++ field

/-- Bit 15 of a memory-reference word (R93). -/
def ibitOfMode : AddrMode → Bit
  | .direct => 0
  | .indirect => 1

/-- A memory-reference word (R92). -/
def encodeMemRef (d : Bits3) (mode : AddrMode) (addr : Addr) : Word := joinWord (ibitOfMode mode) d addr

/-- A register-reference word with the given select mask and ignored bits (R94, R95). -/
def encodeRegRef (mask low : SelField) : Word := joinWord 0 7 (mask ||| low)

/-- An input-output word with the given select mask and ignored bits (R97). -/
def encodeInOut (mask low : SelField) : Word := joinWord 1 7 (mask ||| low)

/-- The word of an instruction. -/
def encode : Instr → Word
  | .and mode addr => encodeMemRef 0 mode addr
  | .add mode addr => encodeMemRef 1 mode addr
  | .lda mode addr => encodeMemRef 2 mode addr
  | .sta mode addr => encodeMemRef 3 mode addr
  | .bun mode addr => encodeMemRef 4 mode addr
  | .bsa mode addr => encodeMemRef 5 mode addr
  | .isz mode addr => encodeMemRef 6 mode addr
  | .cla low => encodeRegRef 0x800 low
  | .cle low => encodeRegRef 0x400 low
  | .cma low => encodeRegRef 0x200 low
  | .cme low => encodeRegRef 0x100 low
  | .cir low => encodeRegRef 0x080 low
  | .cil low => encodeRegRef 0x040 low
  | .inc low => encodeRegRef 0x020 low
  | .spa low => encodeRegRef 0x010 low
  | .sna low => encodeRegRef 0x008 low
  | .sza low => encodeRegRef 0x004 low
  | .sze low => encodeRegRef 0x002 low
  | .hlt => encodeRegRef 0x001 0
  | .rriNone => encodeRegRef 0 0
  | .inp low => encodeInOut 0x800 low
  | .out low => encodeInOut 0x400 low
  | .ski low => encodeInOut 0x200 low
  | .sko low => encodeInOut 0x100 low
  | .ion low => encodeInOut 0x080 low
  | .iof low => encodeInOut 0x040 low
  | .ioNone low => encodeInOut 0 low

/-! ### The opcode table (R104) -/

/-- The mnemonic of an instruction's row. -/
def Instr.mnemonic : Instr → String
  | .and _ _ => "AND"
  | .add _ _ => "ADD"
  | .lda _ _ => "LDA"
  | .sta _ _ => "STA"
  | .bun _ _ => "BUN"
  | .bsa _ _ => "BSA"
  | .isz _ _ => "ISZ"
  | .cla _ => "CLA"
  | .cle _ => "CLE"
  | .cma _ => "CMA"
  | .cme _ => "CME"
  | .cir _ => "CIR"
  | .cil _ => "CIL"
  | .inc _ => "INC"
  | .spa _ => "SPA"
  | .sna _ => "SNA"
  | .sza _ => "SZA"
  | .sze _ => "SZE"
  | .hlt => "HLT"
  | .rriNone => "RRI_NONE"
  | .inp _ => "INP"
  | .out _ => "OUT"
  | .ski _ => "SKI"
  | .sko _ => "SKO"
  | .ion _ => "ION"
  | .iof _ => "IOF"
  | .ioNone _ => "IO_NONE"

/-- A row of the opcode table: a word `w` is the row's instruction exactly when `w & mask = pattern` (R104). -/
structure OpcodeRow where
  mnemonic : String
  pattern : Word
  mask : Word
deriving DecidableEq, Repr

/-- Does the word match the row? -/
def OpcodeRow.covers (row : OpcodeRow) (w : Word) : Bool := decide (w &&& row.mask = row.pattern)

/-- The memory-reference rows (R92). -/
def memRefRows : List OpcodeRow :=
  [⟨"AND", 0x0000, 0x7000⟩, ⟨"ADD", 0x1000, 0x7000⟩, ⟨"LDA", 0x2000, 0x7000⟩, ⟨"STA", 0x3000, 0x7000⟩,
   ⟨"BUN", 0x4000, 0x7000⟩, ⟨"BSA", 0x5000, 0x7000⟩, ⟨"ISZ", 0x6000, 0x7000⟩]

/-- The register-reference rows (R94, R96). -/
def regRefRows : List OpcodeRow :=
  [⟨"CLA", 0x7800, 0xF800⟩, ⟨"CLE", 0x7400, 0xFC00⟩, ⟨"CMA", 0x7200, 0xFE00⟩, ⟨"CME", 0x7100, 0xFF00⟩,
   ⟨"CIR", 0x7080, 0xFF80⟩, ⟨"CIL", 0x7040, 0xFFC0⟩, ⟨"INC", 0x7020, 0xFFE0⟩, ⟨"SPA", 0x7010, 0xFFF0⟩,
   ⟨"SNA", 0x7008, 0xFFF8⟩, ⟨"SZA", 0x7004, 0xFFFC⟩, ⟨"SZE", 0x7002, 0xFFFE⟩, ⟨"HLT", 0x7001, 0xFFFF⟩,
   ⟨"RRI_NONE", 0x7000, 0xFFFF⟩]

/-- The input-output rows (R97). -/
def inOutRows : List OpcodeRow :=
  [⟨"INP", 0xF800, 0xF800⟩, ⟨"OUT", 0xF400, 0xFC00⟩, ⟨"SKI", 0xF200, 0xFE00⟩, ⟨"SKO", 0xF100, 0xFF00⟩,
   ⟨"ION", 0xF080, 0xFF80⟩, ⟨"IOF", 0xF040, 0xFFC0⟩, ⟨"IO_NONE", 0xF000, 0xFFC0⟩]

/-- The whole table. -/
def opcodeTable : List OpcodeRow := memRefRows ++ regRefRows ++ inOutRows

end Sys2Proof
end

