-- ==== Sys2Proof/Machine/State.lean ====
section
/-! DEFINITION. The machine's state as plain data (10_state.md), the reasons a micro-step has no next state
(60_exceptions.md R250 to R255), and the state after construction (R44, R280). -/

namespace Sys2Proof.Machine

/-- A written cell of the memory: its word address and its 16-bit pattern. DESIGN CHOICE, safe, log 15: this machine has
no bytes (20_memory.md R61), so a cell is a word and not a `Host.Cell`. -/
abbrev Cell := Nat × Word

/-- The 4096 cells of 20_memory.md R60: the written ones, by strictly rising address. An unlisted address holds the
marker "unset". -/
abbrev Memory := List Cell

/-- The canonical form: addresses strictly rising and inside the capacity. (An entry always holds a pattern, never the
marker, so no entry equals what an unlisted address holds.) -/
abbrev Memory.wf (m : Memory) : Prop :=
  m.Pairwise (fun c d => c.1 < d.1) ∧ ∀ c ∈ m, c.1 < Config.memWords

/-- The faults of the control unit, the complete list of 60_exceptions.md R255. -/
inductive Fault where
  /-- R252: a micro-step read an unset cell at address `a` (T1, T3 indirect, T4 of AND, ADD, LDA, ISZ). Raised by
  `withRead`. Safe: the model stops where the source leaves the behaviour open. -/
  | uninitializedRead (a : Addr)
  /-- R253: T3 met the word `w` of the input-output group, which has no semantics. Raised by the input-output meanings.
  Safe. -/
  | ioNotImplemented (w : Word)
deriving DecidableEq, Repr

/-- The refusals: situations the rules give no micro-step (R251). -/
inductive Refusal where
  /-- An instruction without a meaning in `exec`. Raised by no arm of this model. Safe. -/
  | notModelled (mnemonic : String)
  /-- The run-flag is 0: the machine is halted and its state is final (40_fetch_decode.md R121, log 6). Raised by
  `step`. Safe. -/
  | halted
  /-- A fault is recorded: the machine has no micro-step any more (R121, R250, log 5). Raised by `step`. Safe. -/
  | faultRecorded
  /-- R131, R254: the pair (T, D) has no row in the table of R122. Raised by `offSchedule`. Safe, log 7. -/
  | invalidSequenceState (t d : Bits3)
  /-- `exec` was asked of a state at T0, T1 or T2, where no instruction is selected yet; `step` never does so.
  Raised by `offSchedule`. Safe, log 8. -/
  | notAtDispatch (t : Bits3)
deriving DecidableEq, Repr

/-- The nine registers of 10_state.md R31, the fault record of R46, the memory of R43, and the model's own mark of
whether `run` has been called. -/
structure State where
  /-- AR, the address register (R32). -/
  ar : Addr
  /-- PC, the program counter (R33). -/
  pc : Addr
  /-- DR, the data register (R34). -/
  dr : Word
  /-- AC, the accumulator (R35). -/
  ac : Word
  /-- IR, the instruction register (R36). -/
  ir : Word
  /-- SC, the sequence counter (R39). -/
  sc : Bits3
  /-- I, the indirect flag, written at T2 and read by nothing (R37, log 10). -/
  indFlag : Bit
  /-- E, the extension or carry bit (R40). -/
  e : Bit
  /-- S, the run-flag (R41). -/
  runFlag : Bit
  /-- The sticky fault record (R46). -/
  fault : Option Fault
  /-- The memory (R43). -/
  mem : Memory
  /-- Has `run` been called on this control unit? The MODEL'S own field (DESIGN CHOICE, safe, log 13): 40_fetch_decode.md
  R132 refuses a second call. No micro-step reads or writes it. -/
  launched : Bool
deriving DecidableEq, Repr

/-- What a micro-step answers (00_scope.md R13). -/
abbrev Result := Host.Outcome State Fault Refusal

/-- The state after construction, for given `RESET_VALUE`s (R44, R280). -/
def State.resetWith (r : Config.ResetValues) : State where
  ar := r.ar
  pc := 0
  dr := r.dr
  ac := r.ac
  ir := r.ir
  sc := 0
  indFlag := r.indFlag
  e := r.e
  runFlag := 0
  fault := none
  mem := []
  launched := false

/-- The state after construction with the spec's default reset values (DESIGN CHOICE, unsafe, logs 2 and 3). -/
def State.reset : State := State.resetWith Config.resetValues

end Sys2Proof.Machine
end

