-- ==== Sys2Proof/Machine/Registers.lean ====
section
/-! DEFINITION. The register primitives of 10_state.md R22 to R29 for a register of any width `b`. All are total (R30), and
every result is reduced modulo 2^b by its type (R21). -/

namespace Sys2Proof.Machine.Reg

/-- Transfer into a `b`-bit register: the value modulo 2^b (R22, log 28). -/
def transfer (b : Nat) (v : Nat) : BitVec b := BitVec.ofNat b v

/-- `increment()`: no carry result (R23). -/
def increment {b : Nat} (w : BitVec b) : BitVec b := BitVec.ofNat b (w.toNat + 1)

/-- `clear()` (R24). -/
def clear {b : Nat} (_w : BitVec b) : BitVec b := 0

/-- `logicAnd(other)` (R25). -/
def logicAnd {b : Nat} (w other : BitVec b) : BitVec b := w &&& other

/-- `add(other)`: the exact sum, reduced, and its carry (R26). -/
def add {b : Nat} (w other : BitVec b) : BitVec b × Bit :=
  let sum := w.toNat + other.toNat
  (BitVec.ofNat b sum, if 2 ^ b ≤ sum then 1 else 0)

/-- `complement()`: every bit inverted (R27). -/
def complement {b : Nat} (w : BitVec b) : BitVec b := ~~~w

/-- `shiftRight(incomingMsb)`: the new word and the outgoing bit 0 (R28). -/
def shiftRight {b : Nat} (w : BitVec b) (incomingMsb : Bit) : BitVec b × Bit :=
  (((incomingMsb ++ w) >>> 1).setWidth b, w.setWidth 1)

/-- `shiftLeft(incomingLsb)`: the new word and the outgoing top bit (R29). -/
def shiftLeft {b : Nat} (w : BitVec b) (incomingLsb : Bit) : BitVec b × Bit :=
  ((w ++ incomingLsb).setWidth b, BitVec.ofBool w.msb)

end Sys2Proof.Machine.Reg
end

