-- ==== Sys2Proof/Machine/Flags.lean ====
section
/-! DEFINITION. What sets E, and the conditions the skip instructions test (10_state.md R40; 41_memory_reference.md R142;
42_register_reference.md R165, R166, R168 to R171). -/

namespace Sys2Proof.Machine

/-- ADD's carry out of bit 15; the old E is no input (R142, log 35). -/
def carryOfAdd (ac dr : Word) : Bit := (Reg.add ac dr).2

/-- "AC's sign bit is 0" (R168). -/
def isPositive (ac : Word) : Bool := decide (ac.extractLsb' 15 1 = 0)

/-- "AC's sign bit is 1" (R169). -/
def isNegative (ac : Word) : Bool := decide (ac.extractLsb' 15 1 = 1)

/-- "AC = 0": all sixteen bits (R170). -/
def isZeroWord (w : Word) : Bool := decide (w = 0)

/-- "E = 0" (R171). -/
def isZeroBit (e : Bit) : Bool := decide (e = 0)

end Sys2Proof.Machine
end

