-- ==== Sys2Proof/Machine/Ops.lean ====
section
/-! DEFINITION. The named operations over memory and registers that every micro-step is made of: the two memory
primitives (20_memory.md R62 to R64), taking a fault (60_exceptions.md R250), the two ways a micro-step ends
(10_state.md R39), the skip (70_reset_and_hazards.md R288), and the answer off the schedule
(40_fetch_decode.md R131). -/

namespace Sys2Proof.Machine

/-! ### Memory -/

/-- `read(address)`: the stored pattern, or `none` for the unset marker (R62). -/
def Memory.read : Memory → Nat → Option Word
  | [], _ => none
  | (k, v) :: m, a => if k = a then some v else Memory.read m a

/-- `write(address, word)`: the cell holds the word, every other cell is as before (R63). -/
def Memory.write : Memory → Nat → Word → Memory
  | [], a, v => [(a, v)]
  | (k, u) :: m, a, v =>
    if a < k then (a, v) :: (k, u) :: m
    else if a = k then (a, v) :: m
    else (k, u) :: Memory.write m a v

/-- `MemRead(a, 1)` by the control unit under an unset policy (R64). -/
def memRead (u : Config.UnsetPolicy) (m : Memory) (a : Addr) : Except Fault Word :=
  match m.read a.toNat, u with
  | some v, _ => .ok v
  | none, .fault => .error (.uninitializedRead a)
  | none, .zero => .ok 0

/-- `MemWrite(a, 1, v)` by the control unit: never faults (R63). -/
def memWrite (m : Memory) (a : Addr) (v : Word) : Memory := m.write a.toNat v

/-! ### Faults -/

/-- Taking a fault: the micro-step has no next state, so no register, no cell and not SC changes (R250, R259). There is
no trap entry (R259) and so no return from one (R260). -/
def raise (f : Fault) : Result := .fault f

/-- The record of a fault in the state it left (R46, R250): everything else is kept. A fault already recorded stays:
the record is sticky. -/
def State.recordFault (s : State) (f : Fault) : State := { s with fault := s.fault <|> some f }

/-! ### Parts of a micro-step -/

/-- A micro-step that reads `M[AR]`: it continues with the word, or faults with nothing written (R32, R68, R250). -/
def withRead (u : Config.UnsetPolicy) (s : State) (k : Word → State) : Result :=
  match memRead u s.mem s.ar with
  | .ok v => .next (k v)
  | .error f => raise f

/-- A micro-step's memory write: the address is the AR before it (R32, R68). -/
def State.store (s : State) (v : Word) : State := { s with mem := memWrite s.mem s.ar v }

/-- `SC <- SC + 1` (R39). -/
def State.advanceT (s : State) : State := { s with sc := Reg.increment s.sc }

/-- `SC <- 0`: the instruction retires (R39). -/
def State.retire (s : State) : State := { s with sc := 0 }

/-- `if c then PC <- (PC + 1) mod 4096` (R33, R288). -/
def State.skipIf (s : State) (c : Bool) : State := { s with pc := if c then Reg.increment s.pc else s.pc }

/-- The answer where the schedule has no row (R131, R254); before T3 no instruction is selected (log 8). -/
def offSchedule (s : State) : Result :=
  if s.sc < 3 then .refused (.notAtDispatch s.sc) else .refused (.invalidSequenceState s.sc (opcodeOf s.ir))

end Sys2Proof.Machine
end

