-- ==== Sys2Proof/Machine/InputOutput.lean ====
section
/-! DEFINITION. The input-output group, words 0xF000 to 0xFFFF: encodings without execution semantics. T3 raises
`IoNotImplemented(IR)` for every one of them (43_io_group.md R191; 30_encoding.md R98; decision D2, log 9). There is
no device state (R192) and no interrupt enable (R193). -/

namespace Sys2Proof.Machine

/-- T3 of an input-output word: the fault, with nothing changed (R129, R191, R253). -/
def inOutStep (s : State) : Result :=
  if s.sc = 3 then raise (.ioNotImplemented s.ir) else offSchedule s

/-- INP (R191). -/
def execInp (_low : SelField) (s : State) : Result := inOutStep s

/-- OUT (R191). -/
def execOut (_low : SelField) (s : State) : Result := inOutStep s

/-- SKI (R191). -/
def execSki (_low : SelField) (s : State) : Result := inOutStep s

/-- SKO (R191). -/
def execSko (_low : SelField) (s : State) : Result := inOutStep s

/-- ION (R191). -/
def execIon (_low : SelField) (s : State) : Result := inOutStep s

/-- IOF (R191). -/
def execIof (_low : SelField) (s : State) : Result := inOutStep s

/-- IO_NONE, the words 0xF000 to 0xF03F (R191). -/
def execIoNone (_low : SelField) (s : State) : Result := inOutStep s

end Sys2Proof.Machine
end

