-- ==== Sys2Proof/Machine/Operands.lean ====
section
/-! DEFINITION. The operand of a memory-reference instruction: its effective address, formed at T3
(40_fetch_decode.md R127), and the operand read of T4 (41_memory_reference.md R140 to R143, R147). -/

namespace Sys2Proof.Machine

/-- T3 of a memory-reference word: direct changes only SC; indirect replaces AR by the low 12 bits of the pointer word
(R127, 20_memory.md R69). -/
def dereference (u : Config.UnsetPolicy) (mode : AddrMode) (s : State) : Result :=
  match mode with
  | .direct => .next s.advanceT
  | .indirect => withRead u s (fun v => { s with ar := addrOf v }.advanceT)

/-- T4 of AND, ADD, LDA and ISZ: `DR <- MemRead(AR, 1)`. -/
def loadOperand (u : Config.UnsetPolicy) (s : State) : Result :=
  withRead u s (fun v => { s with dr := v }.advanceT)

/-- The effective address of an instruction (R140, 30_encoding.md R93): the address field, or the low 12 bits of the word
there. -/
def effectiveAddr (u : Config.UnsetPolicy) (m : Memory) (mode : AddrMode) (addr : Addr) : Except Fault Addr :=
  match mode with
  | .direct => .ok addr
  | .indirect =>
    match memRead u m addr with
    | .ok v => .ok (addrOf v)
    | .error f => .error f

end Sys2Proof.Machine
end

