-- ==== Sys2Proof/Machine/MemoryReference.lean ====
section
/-! DEFINITION. AND, ADD, LDA, STA, BUN, BSA, ISZ: T3 to T6 (40_fetch_decode.md R122; 41_memory_reference.md R141 to R147).
AR holds the effective address from T4 on, so the meanings do not read the address field again. -/

namespace Sys2Proof.Machine

/-! ### The micro-operations of T4, T5 and T6 -/

/-- AND T5: `AC <- AC & DR; SC <- 0` (R141). -/
def andT5 (s : State) : State := { s with ac := Reg.logicAnd s.ac s.dr }.retire

/-- ADD T5: `AC <- AC + DR`, E the carry out, always written; `SC <- 0` (R142). -/
def addT5 (s : State) : State := { s with ac := (Reg.add s.ac s.dr).1, e := carryOfAdd s.ac s.dr }.retire

/-- LDA T5: `AC <- DR; SC <- 0` (R143). -/
def ldaT5 (s : State) : State := { s with ac := s.dr }.retire

/-- STA T4: `MemWrite(AR, 1, AC); SC <- 0` (R144). -/
def staT4 (s : State) : State := (s.store s.ac).retire

/-- BUN T4: `PC <- AR; SC <- 0` (R145). -/
def bunT4 (s : State) : State := { s with pc := s.ar }.retire

/-- BSA T4: `MemWrite(AR, 1, zext_16(PC)); AR <- AR + 1`, the write at the old AR (R146, R123). -/
def bsaT4 (s : State) : State := { s.store (s.pc.setWidth 16) with ar := Reg.increment s.ar }.advanceT

/-- BSA T5: `PC <- AR; SC <- 0` (R146). -/
def bsaT5 (s : State) : State := { s with pc := s.ar }.retire

/-- ISZ T5: `DR <- DR + 1`, no carry (R147). -/
def iszT5 (s : State) : State := { s with dr := Reg.increment s.dr }.advanceT

/-- ISZ T6: `MemWrite(AR, 1, DR); if DR = 0 then PC <- PC + 1; SC <- 0` (R147). -/
def iszT6 (s : State) : State := ((s.store s.dr).skipIf (isZeroWord s.dr)).retire

/-! ### The meanings -/

/-- AND (R141). -/
def execAnd (mode : AddrMode) (_addr : Addr) (s : State) : Result :=
  if s.sc = 3 then dereference Config.unsetPolicy mode s
  else if s.sc = 4 then loadOperand Config.unsetPolicy s
  else if s.sc = 5 then .next (andT5 s)
  else offSchedule s

/-- ADD (R142). -/
def execAdd (mode : AddrMode) (_addr : Addr) (s : State) : Result :=
  if s.sc = 3 then dereference Config.unsetPolicy mode s
  else if s.sc = 4 then loadOperand Config.unsetPolicy s
  else if s.sc = 5 then .next (addT5 s)
  else offSchedule s

/-- LDA (R143). -/
def execLda (mode : AddrMode) (_addr : Addr) (s : State) : Result :=
  if s.sc = 3 then dereference Config.unsetPolicy mode s
  else if s.sc = 4 then loadOperand Config.unsetPolicy s
  else if s.sc = 5 then .next (ldaT5 s)
  else offSchedule s

/-- STA (R144). -/
def execSta (mode : AddrMode) (_addr : Addr) (s : State) : Result :=
  if s.sc = 3 then dereference Config.unsetPolicy mode s
  else if s.sc = 4 then .next (staT4 s)
  else offSchedule s

/-- BUN (R145). -/
def execBun (mode : AddrMode) (_addr : Addr) (s : State) : Result :=
  if s.sc = 3 then dereference Config.unsetPolicy mode s
  else if s.sc = 4 then .next (bunT4 s)
  else offSchedule s

/-- BSA (R146). -/
def execBsa (mode : AddrMode) (_addr : Addr) (s : State) : Result :=
  if s.sc = 3 then dereference Config.unsetPolicy mode s
  else if s.sc = 4 then .next (bsaT4 s)
  else if s.sc = 5 then .next (bsaT5 s)
  else offSchedule s

/-- ISZ (R147). -/
def execIsz (mode : AddrMode) (_addr : Addr) (s : State) : Result :=
  if s.sc = 3 then dereference Config.unsetPolicy mode s
  else if s.sc = 4 then loadOperand Config.unsetPolicy s
  else if s.sc = 5 then .next (iszT5 s)
  else if s.sc = 6 then .next (iszT6 s)
  else offSchedule s

end Sys2Proof.Machine
end

