-- ==== Sys2Proof/Machine/RegisterReference.lean ====
section
/-! DEFINITION. CLA to HLT and the word 0x7000: each executes in the one micro-step T3, which always writes `SC <- 0`
(42_register_reference.md R160 to R174). The select bits below the instruction's own have no effect (R173). -/

namespace Sys2Proof.Machine

/-! ### The operations -/

/-- CLA, clear AC: `AC <- 0` (R161). -/
def claOp (s : State) : State := { s with ac := Reg.clear s.ac }

/-- CLE, clear E: `E <- 0` (R162). -/
def cleOp (s : State) : State := { s with e := Reg.clear s.e }

/-- CMA, complement AC: `AC <- 0xFFFF - AC` (R163). -/
def cmaOp (s : State) : State := { s with ac := Reg.complement s.ac }

/-- CME, complement E: `E <- 1 - E` (R164). -/
def cmeOp (s : State) : State := { s with e := Reg.complement s.e }

/-- CIR, circulate right through E: `E <- AC.shiftRight(E)` (R165). -/
def cirOp (s : State) : State := { s with ac := (Reg.shiftRight s.ac s.e).1, e := (Reg.shiftRight s.ac s.e).2 }

/-- CIL, circulate left through E: `E <- AC.shiftLeft(E)` (R166). -/
def cilOp (s : State) : State := { s with ac := (Reg.shiftLeft s.ac s.e).1, e := (Reg.shiftLeft s.ac s.e).2 }

/-- INC, increment AC; E is unchanged even when AC wraps: `AC <- (AC + 1) mod 65536` (R167, log 35). -/
def incOp (s : State) : State := { s with ac := Reg.increment s.ac }

/-- SPA, skip if AC positive: `if AC[15] = 0 then PC <- PC + 1` (R168). -/
def spaOp (s : State) : State := s.skipIf (isPositive s.ac)

/-- SNA, skip if AC negative: `if AC[15] = 1 then PC <- PC + 1` (R169). -/
def snaOp (s : State) : State := s.skipIf (isNegative s.ac)

/-- SZA, skip if AC zero: `if AC = 0 then PC <- PC + 1` (R170). -/
def szaOp (s : State) : State := s.skipIf (isZeroWord s.ac)

/-- SZE, skip if E zero: `if E = 0 then PC <- PC + 1` (R171). -/
def szeOp (s : State) : State := s.skipIf (isZeroBit s.e)

/-- HLT, halt: `S <- 0` (R172). -/
def hltOp (s : State) : State := { s with runFlag := 0 }

/-- The word 0x7000: no operation: `nothing` (R174, R96, log 12). -/
def rriNoneOp (s : State) : State := s

/-! ### The meanings -/

/-- A register-reference instruction: its operation at T3, with SC cleared in the same micro-step (R128, R160). -/
def regRefStep (op : State → State) (s : State) : Result :=
  if s.sc = 3 then .next (op s).retire else offSchedule s

/-- CLA (R161). -/
def execCla (_low : SelField) (s : State) : Result := regRefStep claOp s

/-- CLE (R162). -/
def execCle (_low : SelField) (s : State) : Result := regRefStep cleOp s

/-- CMA (R163). -/
def execCma (_low : SelField) (s : State) : Result := regRefStep cmaOp s

/-- CME (R164). -/
def execCme (_low : SelField) (s : State) : Result := regRefStep cmeOp s

/-- CIR (R165). -/
def execCir (_low : SelField) (s : State) : Result := regRefStep cirOp s

/-- CIL (R166). -/
def execCil (_low : SelField) (s : State) : Result := regRefStep cilOp s

/-- INC (R167, log 35). -/
def execInc (_low : SelField) (s : State) : Result := regRefStep incOp s

/-- SPA (R168). -/
def execSpa (_low : SelField) (s : State) : Result := regRefStep spaOp s

/-- SNA (R169). -/
def execSna (_low : SelField) (s : State) : Result := regRefStep snaOp s

/-- SZA (R170). -/
def execSza (_low : SelField) (s : State) : Result := regRefStep szaOp s

/-- SZE (R171). -/
def execSze (_low : SelField) (s : State) : Result := regRefStep szeOp s

/-- HLT (R172). -/
def execHlt (s : State) : Result := regRefStep hltOp s

/-- RRI_NONE (R174, R96, log 12). -/
def execRriNone (s : State) : Result := regRefStep rriNoneOp s

end Sys2Proof.Machine
end

