-- ==== Sys2Proof/Machine/Dispatch.lean ====
section
/-! DEFINITION. The dispatch of the micro-steps T3 to T6 to the instruction in IR (40_fetch_decode.md R122, R127 to R130):
one arm per constructor of `Instr`. -/

namespace Sys2Proof.Machine

def exec (i : Instr) (s : State) : Host.Outcome State Fault Refusal :=
  match i with
  | .and mode addr => Sys2Proof.Machine.execAnd mode addr s
  | .add mode addr => Sys2Proof.Machine.execAdd mode addr s
  | .lda mode addr => Sys2Proof.Machine.execLda mode addr s
  | .sta mode addr => Sys2Proof.Machine.execSta mode addr s
  | .bun mode addr => Sys2Proof.Machine.execBun mode addr s
  | .bsa mode addr => Sys2Proof.Machine.execBsa mode addr s
  | .isz mode addr => Sys2Proof.Machine.execIsz mode addr s
  | .cla low => Sys2Proof.Machine.execCla low s
  | .cle low => Sys2Proof.Machine.execCle low s
  | .cma low => Sys2Proof.Machine.execCma low s
  | .cme low => Sys2Proof.Machine.execCme low s
  | .cir low => Sys2Proof.Machine.execCir low s
  | .cil low => Sys2Proof.Machine.execCil low s
  | .inc low => Sys2Proof.Machine.execInc low s
  | .spa low => Sys2Proof.Machine.execSpa low s
  | .sna low => Sys2Proof.Machine.execSna low s
  | .sza low => Sys2Proof.Machine.execSza low s
  | .sze low => Sys2Proof.Machine.execSze low s
  | .hlt => Sys2Proof.Machine.execHlt s
  | .rriNone => Sys2Proof.Machine.execRriNone s
  | .inp low => Sys2Proof.Machine.execInp low s
  | .out low => Sys2Proof.Machine.execOut low s
  | .ski low => Sys2Proof.Machine.execSki low s
  | .sko low => Sys2Proof.Machine.execSko low s
  | .ion low => Sys2Proof.Machine.execIon low s
  | .iof low => Sys2Proof.Machine.execIof low s
  | .ioNone low => Sys2Proof.Machine.execIoNone low s

end Sys2Proof.Machine
end

