-- ==== Sys2Proof/Machine/Fetch.lean ====
section
/-! DEFINITION. The micro-steps T0, T1 and T2 that every instruction shares (40_fetch_decode.md R124 to R126). All
right-hand sides are read from the state before the micro-step (R123, log 11). -/

namespace Sys2Proof.Machine

/-- T0: `AR <- PC` (R124). -/
def fetchT0 (s : State) : Result := .next { s with ar := s.pc }.advanceT

/-- T1: `IR <- MemRead(AR, 1); PC <- PC + 1` (R125). -/
def fetchT1 (u : Config.UnsetPolicy) (s : State) : Result :=
  withRead u s (fun v => { s with ir := v, pc := Reg.increment s.pc }.advanceT)

/-- T2: `AR <- IR[11:0]; I <- IR[15]` (R126). -/
def fetchT2 (s : State) : Result := .next { s with ar := addrOf s.ir, indFlag := ibitOf s.ir }.advanceT

end Sys2Proof.Machine
end

