-- ==== Sys2Proof/Machine/Step.lean ====
section
/-! DEFINITION. One micro-step (40_fetch_decode.md R120 to R122): the guard, the common micro-steps T0 to T2, and from T3
on the instruction in IR. -/

namespace Sys2Proof.Machine

/-- One call of the machine's `step()`: exactly one value of SC (R120, log 1). A micro-step exists only when S = 1 and no
fault is recorded (R121). -/
def step (s : State) : Host.Outcome State Fault Refusal :=
  if s.fault ≠ none then .refused .faultRecorded
  else if s.runFlag = 0 then .refused .halted
  else if s.sc = 0 then fetchT0 s
  else if s.sc = 1 then fetchT1 Config.unsetPolicy s
  else if s.sc = 2 then fetchT2 s
  else exec (decode s.ir) s

/-- The host's placing of an instruction so that THE VERY NEXT micro-step is the first one of its own (log 16): the word
lies in memory at PC, and the machine runs and stands at T3 of it, as T0, T1 and T2 leave it (R124 to R126). -/
def State.withFetchWord (s : State) (_nbits w : Nat) : State :=
  let word := BitVec.ofNat 16 w
  { s with
    mem := memWrite s.mem s.pc word
    ir := word
    ar := addrOf word
    indFlag := ibitOf word
    pc := Reg.increment s.pc
    sc := 3
    runFlag := 1
    fault := none
    launched := true }

end Sys2Proof.Machine
end

