-- ==== Sys2Proof/Machine/Assembler.lean ====
section
/-! DEFINITION. The two-pass assembler, the loader of this machine (44_assembler.md R200 to R236): a function from text to
the writes of the memory image and the entry address, to one of the source's four errors, or to a refusal. Tokens are
lists of characters. -/

namespace Sys2Proof.Machine.Assembler

/-! ### Results -/

/-- The source's four errors (R201; 60_exceptions.md R256). They carry no payload. -/
inductive AsmError where
  /-- R213, pass 1. -/
  | duplicateLabel
  /-- R224, pass 2. -/
  | undefinedSymbol
  /-- R227, pass 2. -/
  | invalidMnemonic
  /-- R226, pass 2. -/
  | addressOutOfRange
deriving DecidableEq, Repr

/-- The refusals, the spec's own: texts outside the admitted grammar (R236). Safe, logs 20 to 25. -/
inductive AsmRefusal where
  | badLabel
  | emptyStatement
  | missingOperand
  | extraTokens
  | labelOnDirective
  | badLiteral
  | literalOutOfRange
  | missingOrigin
deriving DecidableEq, Repr

/-- `assemble(text)` (R201). -/
inductive AsmResult where
  /-- The writes in the order pass 2 emits them, and the entry address. -/
  | ok (writes : List Cell) (entry : Nat)
  | error (e : AsmError)
  | refused (r : AsmRefusal)
deriving DecidableEq, Repr

/-! ### Statements (R209) -/

abbrev Token := List Char

/-- The memory-reference mnemonics (R221). -/
inductive MemOp where
  | and | add | lda | sta | bun | bsa | isz
deriving DecidableEq, Repr

/-- The register-reference mnemonics (R222). -/
inductive RegOp where
  | cla | cle | cma | cme | cir | cil | inc | spa | sna | sza | sze | hlt
deriving DecidableEq, Repr

/-- The input-output mnemonics (R223). -/
inductive IoOp where
  | inp | out | ski | sko | ion | iof
deriving DecidableEq, Repr

/-- What a statement that occupies a word emits (R225). `unknown` is an unrecognised first token (R227). -/
inductive Emit where
  | mem (op : MemOp) (operand : Token) (mode : AddrMode)
  | reg (op : RegOp)
  | io (op : IoOp)
  | hex (h : Nat)
  | dec (d : Int)
  | unknown
deriving DecidableEq, Repr

/-- A statement that either pass reads. -/
inductive Stmt where
  | org (n : Nat)
  | emit (label : Option Token) (what : Emit)
deriving DecidableEq, Repr

/-- One line of the text, read. -/
inductive ParsedLine where
  | blank
  | endOfProgram
  | stmt (st : Stmt)
deriving DecidableEq, Repr

/-! ### The words of the mnemonics -/

/-- The opcode values (R221; 30_encoding.md R92). -/
def opcodeValue : MemOp → Nat
  | .and => 0
  | .add => 1
  | .lda => 2
  | .sta => 3
  | .bun => 4
  | .bsa => 5
  | .isz => 6

/-- The register-reference bit masks (R222; 30_encoding.md R94). -/
def regMask : RegOp → Word
  | .cla => 0x800
  | .cle => 0x400
  | .cma => 0x200
  | .cme => 0x100
  | .cir => 0x080
  | .cil => 0x040
  | .inc => 0x020
  | .spa => 0x010
  | .sna => 0x008
  | .sza => 0x004
  | .sze => 0x002
  | .hlt => 0x001

/-- The input-output bit masks (R223; 30_encoding.md R97). -/
def ioMask : IoOp → Word
  | .inp => 0x800
  | .out => 0x400
  | .ski => 0x200
  | .sko => 0x100
  | .ion => 0x080
  | .iof => 0x040

/-- `(opcode << 12) | (symbol address & 0xFFF) | (0x8000 if trailing I else 0)` (R221). -/
def memWord (op : MemOp) (addr : Nat) (mode : AddrMode) : Word :=
  (BitVec.ofNat 16 (opcodeValue op) <<< 12) ||| (BitVec.ofNat 16 addr &&& 0xFFF)
    ||| (match mode with
         | .indirect => 0x8000
         | .direct => 0)

/-- `0x7000 | mask` (R222). -/
def regWord (op : RegOp) : Word := 0x7000 ||| regMask op

/-- `0xF000 | mask` (R223). -/
def ioWord (op : IoOp) : Word := 0xF000 ||| ioMask op

/-- The first tokens of R209 by class. -/
def memNames : List (String × MemOp) :=
  [("AND", .and), ("ADD", .add), ("LDA", .lda), ("STA", .sta), ("BUN", .bun), ("BSA", .bsa), ("ISZ", .isz)]

def regNames : List (String × RegOp) :=
  [("CLA", .cla), ("CLE", .cle), ("CMA", .cma), ("CME", .cme), ("CIR", .cir), ("CIL", .cil), ("INC", .inc),
   ("SPA", .spa), ("SNA", .sna), ("SZA", .sza), ("SZE", .sze), ("HLT", .hlt)]

def ioNames : List (String × IoOp) :=
  [("INP", .inp), ("OUT", .out), ("SKI", .ski), ("SKO", .sko), ("ION", .ion), ("IOF", .iof)]

/-- The entry of a table whose name is the token: exact, upper case (R208). -/
def byName {α : Type} : List (String × α) → Token → Option α
  | [], _ => none
  | (name, x) :: rest, tok => if tok = name.toList then some x else byName rest tok

/-! ### Lexical structure (R205 to R210) -/

/-- White space inside a line: space, tab, carriage return (R205, R206). -/
def isWhite (c : Char) : Bool := c = ' ' || c = '\t' || c = '\r'

/-- The pieces of a text between the characters `p` holds of; never the empty list. -/
def splitWhen (p : Char → Bool) : List Char → List (List Char)
  | [] => [[]]
  | c :: cs =>
    if p c then [] :: splitWhen p cs
    else
      match splitWhen p cs with
      | [] => [[c]]
      | piece :: pieces => (c :: piece) :: pieces

/-- Lines are separated by line feeds (R205, log 20). -/
def linesOf (text : List Char) : List (List Char) := splitWhen (fun c => c = '\n') text

/-- A comment starts at the first `/` and runs to the end of the line (R206, PRESUMED by the spec itself, log 20). -/
def stripComment (line : List Char) : List Char := line.takeWhile (fun c => c ≠ '/')

/-- White space removed from both ends. -/
def trim (cs : List Char) : List Char := ((cs.dropWhile isWhite).reverse.dropWhile isWhite).reverse

/-- The tokens of a statement (R208). -/
def tokensOf (cs : List Char) : List Token := (splitWhen isWhite cs).filter (fun t => t ≠ [])

/-- The value of a hexadecimal digit (R210). -/
def hexDigit (c : Char) : Option Nat :=
  let n := c.toNat
  if 48 ≤ n ∧ n ≤ 57 then some (n - 48)
  else if 65 ≤ n ∧ n ≤ 70 then some (n - 55)
  else if 97 ≤ n ∧ n ≤ 102 then some (n - 87)
  else none

/-- The value of a decimal digit (R210). -/
def decDigit (c : Char) : Option Nat :=
  let n := c.toNat
  if 48 ≤ n ∧ n ≤ 57 then some (n - 48) else none

/-- The value of a digit string, most significant digit first, above the value `acc` read so far. -/
def digits (digit : Char → Option Nat) (base : Nat) : Nat → List Char → Option Nat
  | acc, [] => some acc
  | acc, c :: cs =>
    match digit c with
    | some d => digits digit base (acc * base + d) cs
    | none => none

/-- A hexadecimal literal of `ORG` or `HEX`: one or more digits, no prefix, no sign, in 0..0xFFFF (R210, log 21). -/
def hexLiteral (tok : Token) : Except AsmRefusal Nat :=
  match tok with
  | [] => .error .badLiteral
  | _ =>
    match digits hexDigit 16 0 tok with
    | none => .error .badLiteral
    | some n => if n ≤ 0xFFFF then .ok n else .error .literalOutOfRange

/-- One or more decimal digits. -/
def decDigits (tok : Token) : Option Nat :=
  match tok with
  | [] => none
  | _ => digits decDigit 10 0 tok

/-- A decimal literal of `DEC`: an optional sign and digits, in -32768..32767 (R210, log 21). -/
def decLiteral (tok : Token) : Except AsmRefusal Int :=
  let value : Option Int :=
    match tok with
    | '-' :: ds => (decDigits ds).map (fun n => - (n : Int))
    | '+' :: ds => (decDigits ds).map (fun n => (n : Int))
    | ds => (decDigits ds).map (fun n => (n : Int))
  match value with
  | none => .error .badLiteral
  | some d => if -32768 ≤ d ∧ d ≤ 32767 then .ok d else .error .literalOutOfRange

/-! ### One line -/

/-- The statement of a first token and the tokens after it, with its label (R209; the order of the checks is log 25). -/
def parseStatement (label : Option Token) (first : Token) (rest : List Token) : Except AsmRefusal ParsedLine :=
  if first = "END".toList then
    if label ≠ none then .error .labelOnDirective
    else if rest ≠ [] then .error .extraTokens
    else .ok .endOfProgram
  else if first = "ORG".toList then
    if label ≠ none then .error .labelOnDirective
    else
      match rest with
      | [] => .error .missingOperand
      | [n] => (hexLiteral n).map (fun v => .stmt (.org v))
      | _ => .error .extraTokens
  else if first = "HEX".toList then
    match rest with
    | [] => .error .missingOperand
    | [h] => (hexLiteral h).map (fun v => .stmt (.emit label (.hex v)))
    | _ => .error .extraTokens
  else if first = "DEC".toList then
    match rest with
    | [] => .error .missingOperand
    | [d] => (decLiteral d).map (fun v => .stmt (.emit label (.dec v)))
    | _ => .error .extraTokens
  else
    match byName memNames first, byName regNames first, byName ioNames first with
    | some op, _, _ =>
      match rest with
      | [] => .error .missingOperand
      | [x] => .ok (.stmt (.emit label (.mem op x .direct)))
      | [x, y] => if y = "I".toList then .ok (.stmt (.emit label (.mem op x .indirect))) else .error .extraTokens
      | _ => .error .extraTokens
    | none, some op, _ => if rest = [] then .ok (.stmt (.emit label (.reg op))) else .error .extraTokens
    | none, none, some op => if rest = [] then .ok (.stmt (.emit label (.io op))) else .error .extraTokens
    | none, none, none => .ok (.stmt (.emit label .unknown))

/-- The rest of a line after its label prefix (R208). -/
def parseRest (label : Option Token) (cs : List Char) : Except AsmRefusal ParsedLine :=
  match tokensOf cs with
  | [] => .error .emptyStatement
  | first :: rest => parseStatement label first rest

/-- One line (R206, R207). -/
def parseLine (line : List Char) : Except AsmRefusal ParsedLine :=
  let code := stripComment line
  if code.all isWhite then .ok .blank
  else
    match splitWhen (fun c => c = ',') code with
    | [] | [_] => parseRest none code
    | before :: after :: more =>
      if trim before = [] ∨ (trim before).any isWhite then .error .badLabel
      else if more ≠ [] then .error .extraTokens
      else parseRest (some (trim before)) after

/-- The statements up to the first `END` or the end of the text (R216); `seenOrg` says whether an `ORG` stood before
(R211, log 22). -/
def parseLines : Bool → List (List Char) → Except AsmRefusal (List Stmt)
  | seenOrg, [] => if seenOrg then .ok [] else .error .missingOrigin
  | seenOrg, line :: lines =>
    match parseLine line with
    | .error r => .error r
    | .ok .blank => parseLines seenOrg lines
    | .ok .endOfProgram => if seenOrg then .ok [] else .error .missingOrigin
    | .ok (.stmt (.org n)) => (parseLines true lines).map (fun sts => .org n :: sts)
    | .ok (.stmt (.emit label what)) =>
      if seenOrg then (parseLines true lines).map (fun sts => .emit label what :: sts) else .error .missingOrigin

/-! ### The passes -/

/-- Label names with their addresses (R203). -/
abbrev SymTab := List (Token × Nat)

/-- The address of a label, if pass 1 recorded it. -/
def lookup : SymTab → Token → Option Nat
  | [], _ => none
  | (l, a) :: tab, x => if l = x then some a else lookup tab x

/-- The operand of the first `ORG` (R204, R215). -/
def firstOrg : List Stmt → Option Nat
  | [] => none
  | .org n :: _ => some n
  | .emit _ _ :: sts => firstOrg sts

/-- Pass 1 (R212 to R215). The counter `lc` has no value before the first `ORG`; `parseLines` admits no word there, so
the value it is started with is never used. -/
def pass1 : List Stmt → Nat → SymTab → Except AsmError SymTab
  | [], _, tab => .ok tab
  | .org n :: sts, _, tab => pass1 sts n tab
  | .emit none _ :: sts, lc, tab => pass1 sts (lc + 1) tab
  | .emit (some l) _ :: sts, lc, tab =>
    match lookup tab l with
    | some _ => .error .duplicateLabel
    | none => pass1 sts (lc + 1) ((l, lc) :: tab)

/-- The word of a statement (R219 to R224, R227). -/
def encodeEmit (tab : SymTab) : Emit → Except AsmError Word
  | .mem op x mode =>
    match lookup tab x with
    | some a => .ok (memWord op a mode)
    | none => .error .undefinedSymbol
  | .reg op => .ok (regWord op)
  | .io op => .ok (ioWord op)
  | .hex h => .ok (BitVec.ofNat 16 h)
  | .dec d => .ok (BitVec.ofInt 16 d)
  | .unknown => .error .invalidMnemonic

/-- Pass 2 (R217): the words emitted, and the error that stopped it, if any. The encoding error of a line comes before
its range error (R226, log 24). -/
def pass2 (tab : SymTab) : List Stmt → Nat → List Cell × Option AsmError
  | [], _ => ([], none)
  | .org n :: sts, _ => pass2 tab sts n
  | .emit _ what :: sts, lc =>
    match encodeEmit tab what with
    | .error e => ([], some e)
    | .ok w =>
      if Config.memWords ≤ lc then ([], some .addressOutOfRange)
      else ((lc, w) :: (pass2 tab sts (lc + 1)).1, (pass2 tab sts (lc + 1)).2)

/-- Both passes over the statements (R202, R229): a pass-1 error comes before every pass-2 error. -/
def assembleStmts (sts : List Stmt) : AsmResult :=
  match firstOrg sts with
  | none => .refused .missingOrigin
  | some entry =>
    match pass1 sts 0 [] with
    | .error e => .error e
    | .ok tab =>
      match pass2 tab sts 0 with
      | (writes, none) => .ok writes entry
      | (_, some e) => .error e

/-- `assemble(text)` (R201): a refusal comes before every error (R229). -/
def assembleChars (text : List Char) : AsmResult :=
  match parseLines false (linesOf text) with
  | .error r => .refused r
  | .ok sts => assembleStmts sts

def assemble (text : String) : AsmResult := assembleChars text.toList

/-- The words a `load` has written when it ends, also when it fails (R230, R231: for information, log 26). -/
def emittedStmts (sts : List Stmt) : List Cell :=
  match pass1 sts 0 [] with
  | .error _ => []
  | .ok tab => (pass2 tab sts 0).1

/-- Applying writes in order with `MemWrite` (R201, R232). -/
def applyWrites : List Cell → Memory → Memory
  | [], m => m
  | (a, w) :: ws, m => applyWrites ws (m.write a w)

/-- The instruction a memory-reference mnemonic names (R235). -/
def memInstr : MemOp → AddrMode → Addr → Instr
  | .and, mode, addr => .and mode addr
  | .add, mode, addr => .add mode addr
  | .lda, mode, addr => .lda mode addr
  | .sta, mode, addr => .sta mode addr
  | .bun, mode, addr => .bun mode addr
  | .bsa, mode, addr => .bsa mode addr
  | .isz, mode, addr => .isz mode addr

/-- The instruction a register-reference mnemonic names (R235). -/
def regInstr : RegOp → Instr
  | .cla => .cla 0
  | .cle => .cle 0
  | .cma => .cma 0
  | .cme => .cme 0
  | .cir => .cir 0
  | .cil => .cil 0
  | .inc => .inc 0
  | .spa => .spa 0
  | .sna => .sna 0
  | .sza => .sza 0
  | .sze => .sze 0
  | .hlt => .hlt

/-- The instruction an input-output mnemonic names (R235). -/
def ioInstr : IoOp → Instr
  | .inp => .inp 0
  | .out => .out 0
  | .ski => .ski 0
  | .sko => .sko 0
  | .ion => .ion 0
  | .iof => .iof 0

end Sys2Proof.Machine.Assembler
end

