-- ==== Sys2Proof/Machine/Schedule.lean ====
section
/-! DEFINITION. The complete (T, D) table of 40_fetch_decode.md R122 as the source recommends coding it: keyed by opcode and
cycle, with a priority-ordered list of (mask, operation) pairs for register-reference words. It decodes nothing but the
signals of IR, and it takes `UNSET_POLICY` as an argument (R7, log 4). `step` runs the same machine through the decoder. -/

namespace Sys2Proof.Machine.Schedule

/-- The register-reference operations in strict descending-mask order (R122; 42_register_reference.md R160). -/
def regRefOps : List (SelField × (State → State)) :=
  [(0x800, claOp), (0x400, cleOp), (0x200, cmaOp), (0x100, cmeOp), (0x080, cirOp), (0x040, cilOp), (0x020, incOp),
   (0x010, spaOp), (0x008, snaOp), (0x004, szaOp), (0x002, szeOp), (0x001, hltOp)]

/-- The first pair whose mask meets the select field acts; none acts for an empty field (R95, R96). -/
def firstMatch : List (SelField × (State → State)) → SelField → State → State
  | [], _, s => s
  | (mask, op) :: rest, sel, s => if sel &&& mask ≠ 0 then op s else firstMatch rest sel s

/-- The row T = 3 (R127 to R129). -/
def atT3 (u : Config.UnsetPolicy) (s : State) : Result :=
  if opcodeOf s.ir ≠ 7 then dereference u (modeOf (ibitOf s.ir)) s
  else if ibitOf s.ir = 0 then .next (firstMatch regRefOps (addrOf s.ir) s).retire
  else raise (.ioNotImplemented s.ir)

/-- The rows T = 4. -/
def atT4 (u : Config.UnsetPolicy) (s : State) : Result :=
  if opcodeOf s.ir = 0 ∨ opcodeOf s.ir = 1 ∨ opcodeOf s.ir = 2 ∨ opcodeOf s.ir = 6 then loadOperand u s
  else if opcodeOf s.ir = 3 then .next (staT4 s)
  else if opcodeOf s.ir = 4 then .next (bunT4 s)
  else if opcodeOf s.ir = 5 then .next (bsaT4 s)
  else .refused (.invalidSequenceState s.sc (opcodeOf s.ir))

/-- The rows T = 5. -/
def atT5 (s : State) : Result :=
  if opcodeOf s.ir = 0 then .next (andT5 s)
  else if opcodeOf s.ir = 1 then .next (addT5 s)
  else if opcodeOf s.ir = 2 then .next (ldaT5 s)
  else if opcodeOf s.ir = 5 then .next (bsaT5 s)
  else if opcodeOf s.ir = 6 then .next (iszT5 s)
  else .refused (.invalidSequenceState s.sc (opcodeOf s.ir))

/-- The row T = 6. -/
def atT6 (s : State) : Result :=
  if opcodeOf s.ir = 6 then .next (iszT6 s) else .refused (.invalidSequenceState s.sc (opcodeOf s.ir))

/-- One micro-step by the table, with the guard of R121. -/
def microStep (u : Config.UnsetPolicy) (s : State) : Result :=
  if s.fault ≠ none then .refused .faultRecorded
  else if s.runFlag = 0 then .refused .halted
  else if s.sc = 0 then fetchT0 s
  else if s.sc = 1 then fetchT1 u s
  else if s.sc = 2 then fetchT2 s
  else if s.sc = 3 then atT3 u s
  else if s.sc = 4 then atT4 u s
  else if s.sc = 5 then atT5 s
  else if s.sc = 6 then atT6 s
  else .refused (.invalidSequenceState s.sc (opcodeOf s.ir))

/-- The number of micro-steps of a word's instruction, T0 counted; an input-output word faults on its 4th
(70_reset_and_hazards.md R294). -/
def microStepsOf (w : Word) : Nat :=
  if opcodeOf w = 7 then 4
  else if opcodeOf w = 3 ∨ opcodeOf w = 4 then 5
  else if opcodeOf w = 6 then 7
  else 6

end Sys2Proof.Machine.Schedule
end

