-- ==== Sys2Proof/Machine/HostInterface.lean ====
section
/-! DEFINITION. The moves of the host (70_reset_and_hazards.md R281 to R285; 40_fetch_decode.md R132, R133): writing cells and
loading a text before the run, seeding the run, stepping with the fault record kept, and reading cells. -/

namespace Sys2Proof.Machine

/-- Host moves the spec gives no meaning (60_exceptions.md R251). All safe. -/
inductive HostRefusal where
  /-- A host read or write outside 0..4095 (90_conflicts.md C3, U1, log 33). -/
  | addressOutOfRange (a : Nat)
  /-- A write, a load or a second `run` on a control unit whose run has begun (R132, R284, logs 13 and 14). -/
  | runStarted
  /-- `run` with an entry of 4096 or more (R132, D9). -/
  | entryOutOfRange (entry : Nat)
  /-- `run` with a fault recorded (R132). -/
  | faultRecorded
  /-- `run` in the middle of an instruction, SC not 0 (R132). -/
  | midInstruction
deriving DecidableEq, Repr

/-- A control unit constructed around a memory (R281 step 3). -/
def newControlUnit (r : Config.ResetValues) (m : Memory) : State := { State.resetWith r with mem := m }

/-- The host reads a cell: `none` is the unset marker (R62, R284). -/
def hostRead (s : State) (a : Nat) : Except HostRefusal (Option Word) :=
  if a < Config.memWords then .ok (s.mem.read a) else .error (.addressOutOfRange a)

/-- The host writes a cell before the run starts (R284). A run that has begun is reported before a bad address: DESIGN
CHOICE, safe, log 33, no rule gives an order. -/
def hostWrite (s : State) (a : Nat) (v : Word) : Except HostRefusal State :=
  if s.launched then .error .runStarted
  else if a < Config.memWords then .ok { s with mem := s.mem.write a v }
  else .error (.addressOutOfRange a)

/-- `load(memory)`: the writes applied, and the entry address (44_assembler.md R200, R201). -/
inductive LoadResult where
  | loaded (s : State) (entry : Nat)
  /-- The memory after it is not to be used, so none is given (R228, R231, log 26). -/
  | error (e : Assembler.AsmError)
  | refused (r : Assembler.AsmRefusal)
  | notAllowed (r : HostRefusal)
deriving DecidableEq, Repr

/-- `load` into the memory of a control unit that has not run. -/
def load (text : String) (s : State) : LoadResult :=
  if s.launched then .notAllowed .runStarted
  else
    match Assembler.assemble text with
    | .ok writes entry => .loaded { s with mem := Assembler.applyWrites writes s.mem } entry
    | .error e => .error e
    | .refused r => .refused r

/-- The seeding of `run(entry)`: it writes PC and S only (R132); `launched` is the model's mark (log 13). When several
refusals apply, the one reported is the first of: already run, fault recorded, SC not 0, entry out of range. DESIGN CHOICE,
safe, log 13: R132 gives no order. -/
def startRun (entry : Nat) (s : State) : Except HostRefusal State :=
  if s.launched then .error .runStarted
  else if s.fault ≠ none then .error .faultRecorded
  else if s.sc ≠ 0 then .error .midInstruction
  else if entry < Config.memWords then
    .ok { s with pc := Reg.transfer 12 entry, runFlag := 1, launched := true }
  else .error (.entryOutOfRange entry)

/-- One `step()` of the host, with the fault record kept: after a fault the state is the one before the micro-step with
the fault recorded (R250, R259, log 5). After a refusal nothing has changed. -/
def hostStep (s : State) : State :=
  match step s with
  | .next t => t
  | .fault f => s.recordFault f
  | .refused _ => s

/-- How a run goes on or ends (R133, R268). -/
inductive RunEnd where
  /-- The successful end: S = 0. -/
  | halted (s : State)
  /-- A fault, and the state kept. -/
  | faulted (f : Fault) (s : State)
  | refused (r : Refusal) (s : State)
  /-- The runner's budget is spent: no end of the run (log 18). -/
  | unfinished (s : State)
deriving DecidableEq, Repr

/-- The run loop over a micro-step function for at most `budget` micro-steps: it goes on until the run-flag clears
(R132). -/
def runLoop (micro : State → Result) : Nat → State → RunEnd
  | 0, s => if s.runFlag = 0 then .halted s else .unfinished s
  | n + 1, s =>
    if s.runFlag = 0 then .halted s
    else
      match micro s with
      | .next t => runLoop micro n t
      | .fault f => .faulted f (s.recordFault f)
      | .refused r => .refused r s

/-- The run loop of this machine. -/
def runFor (budget : Nat) (s : State) : RunEnd := runLoop step budget s

/-- The run loop under a given unset policy (R64). -/
def runUnder (u : Config.UnsetPolicy) (budget : Nat) (s : State) : RunEnd := runLoop (Schedule.microStep u) budget s

/-- A run from `s` comes to `r` under a step budget; with none it comes to nothing but an end (R133, R268, D17). -/
def RunsTo (budget : Option Nat) (s : State) (r : RunEnd) : Prop :=
  match budget with
  | some n => runFor n s = r
  | none => (∃ n, runFor n s = r) ∧ ∀ t, r ≠ .unfinished t

/-- `run` with the spec's default budget. -/
def RunEndsIn (s : State) (r : RunEnd) : Prop := RunsTo Config.stepBudget s r

/-- What the boot sequence comes to. -/
inductive BootResult where
  | loadError (e : Assembler.AsmError)
  | loadRefused (r : Assembler.AsmRefusal)
  | runRefused (r : HostRefusal)
  | ran (run : RunEnd)
deriving DecidableEq, Repr

/-- The boot sequence of R281: a new memory, the assembler's image in it, a control unit around it, `run(entry)`. -/
def boot (r : Config.ResetValues) (text : String) (budget : Nat) : BootResult :=
  match load text (newControlUnit r []) with
  | .error e => .loadError e
  | .refused x => .loadRefused x
  | .notAllowed h => .runRefused h
  | .loaded s entry =>
    match startRun entry s with
    | .error h => .runRefused h
    | .ok t => .ran (runFor budget t)

end Sys2Proof.Machine
end

