-- ==== Sys2Proof/Safety.lean ====
section
/-! DEFINITION. The terms the statements use: running states, instruction boundaries, the control states a run can reach
(10_state.md R45), and the invariant of the machine. -/

namespace Sys2Proof.Machine

/-- A micro-step exists: S = 1 and no fault is recorded (40_fetch_decode.md R121). -/
def Running (s : State) : Prop := s.runFlag = 1 ∧ s.fault = none

/-- A running machine between two instructions (R134). -/
def AtBoundary (s : State) : Prop := Running s ∧ s.sc = 0

/-- The pairs of SC and D that a run can reach (10_state.md R45). -/
def ControlReachable (s : State) : Prop :=
  s.sc.toNat ≤ 3
  ∨ (s.sc = 4 ∧ opcodeOf s.ir ≠ 7)
  ∨ (s.sc = 5 ∧ (opcodeOf s.ir = 0 ∨ opcodeOf s.ir = 1 ∨ opcodeOf s.ir = 2 ∨ opcodeOf s.ir = 5 ∨ opcodeOf s.ir = 6))
  ∨ (s.sc = 6 ∧ opcodeOf s.ir = 6)

/-- From T3 on the register I holds bit 15 of IR (10_state.md R37). -/
def IndFlagAgrees (s : State) : Prop := 3 ≤ s.sc.toNat → s.indFlag = ibitOf s.ir

/-- AR between the common micro-steps: PC after T0, the fetched word's low 12 bits after T2 (R124 to R126). -/
def AddressAgrees (s : State) : Prop := (s.sc = 1 → s.ar = s.pc) ∧ (s.sc = 3 → s.ar = addrOf s.ir)

/-- A machine that is not running stands at an instruction boundary; a running one has been launched (R132, R133). -/
def RunAgrees (s : State) : Prop := (s.runFlag = 0 → s.sc = 0) ∧ (s.runFlag = 1 → s.launched = true)

/-- The machine's invariant: the memory is in canonical form inside the 4096 cells, and the control state is one a run
can reach. -/
def MachineInv (s : State) : Prop :=
  s.mem.wf ∧ ControlReachable s ∧ IndFlagAgrees s ∧ AddressAgrees s ∧ RunAgrees s

/-- `n` micro-steps of the machine, stopping at the first fault or refusal. -/
abbrev runSteps (n : Nat) (s : State) : Result := Host.Core.run core n s

/-- A SAFE RUN, as the statements count it: for `n` micro-steps every one answers a next state. -/
def SafeFor (n : Nat) (s : State) : Prop := ∃ t, runSteps n s = .next t

/-- A running machine at a boundary whose next word is the word of the instruction `i` (R134, R148, R175). -/
def AboutToRun (s : State) (i : Instr) : Prop :=
  AtBoundary s ∧ i.wellFormed = true ∧ s.mem.read s.pc.toNat = some (encode i)

/-- What T0, T1 and T2 leave for a fetched word `w`, but for SC: AR, PC, IR and I (R124 to R126). -/
def fetched (s : State) (w : Word) : State :=
  { s with ar := addrOf w, pc := s.pc + 1, ir := w, indFlag := ibitOf w }

/-- The labels of the statements, in line order (44_assembler.md R203). -/
def labelsOf : List Assembler.Stmt → List Assembler.Token
  | [] => []
  | .emit (some l) _ :: sts => l :: labelsOf sts
  | .emit none _ :: sts => labelsOf sts
  | .org _ :: sts => labelsOf sts

end Sys2Proof.Machine
end

