-- ==== Sys2Proof/Certificates/Slice0/Obligations.lean ====
section
/-! DEFINITION. The statements for the provers, from the numbered rules of spec/. A state after a micro-step is written
out as the state before it with the written fields replaced, so an equation says the result AND that every other register,
flag, record and memory cell is unchanged. -/

open Sys2Proof Sys2Proof.Machine

/-! ### Encoding (30_encoding.md) -/

/-- R90, R92, R94, R95, R97: the decoder reads back every field the encoder writes, for every well-formed instruction. -/
def Obligations.DecodeOfEncodeIsIdentity : Prop :=
  ∀ i : Instr, i.wellFormed = true → decode (encode i) = i

/-- R100, R101: every one of the 65536 words decodes to a well-formed instruction, and that instruction's word is the word
itself, so no bit of any word is dropped. -/
def Obligations.EncodeOfDecodeIsIdentity : Prop :=
  ∀ w : Word, (decode w).wellFormed = true ∧ encode (decode w) = w

/-- R100, R104: a word matches a row of the opcode table exactly when the row is that of the instruction it decodes to, and
it matches exactly one row. -/
def Obligations.TableRowIsTheDecodedRow : Prop :=
  ∀ w : Word,
    (∀ row ∈ opcodeTable, row.covers w = true ↔ row.mnemonic = (decode w).mnemonic)
    ∧ (opcodeTable.filter (fun row => row.covers w)).length = 1

/-- R92, R94, R96, R97, R95: words written out in the spec decode to the instructions they stand for. -/
def Obligations.WordsOfTheSpecDecode : Prop :=
  decode 0x0020 = .and .direct 0x020 ∧ decode 0x9105 = .add .indirect 0x105 ∧ decode 0xA104 = .lda .indirect 0x104
  ∧ decode 0x3106 = .sta .direct 0x106 ∧ decode 0xC016 = .bun .indirect 0x016 ∧ decode 0x5016 = .bsa .direct 0x016
  ∧ decode 0x6008 = .isz .direct 0x008 ∧ decode 0x7800 = .cla 0 ∧ decode 0x7820 = .cla 0x020 ∧ decode 0x7080 = .cir 0
  ∧ decode 0x7003 = .sze 0x001 ∧ decode 0x7001 = .hlt ∧ decode 0x7000 = .rriNone ∧ decode 0xF800 = .inp 0
  ∧ decode 0xF040 = .iof 0 ∧ decode 0xF03F = .ioNone 0x03F ∧ decode 0xFFE9 = .inp 0x7E9

/-- R95, R173: a register-reference word whose highest set select bit is bit `k` acts in every state as the word with bit
`k` alone. -/
def Obligations.HighestSelectBitDecides : Prop :=
  ∀ (k : Nat) (sel : SelField), k < 12 → sel.toNat / 2 ^ k = 1 →
    ∀ s : State, exec (decode (joinWord 0 7 sel)) s = exec (decode (joinWord 0 7 (BitVec.ofNat 12 (2 ^ k)))) s

/-! ### Register primitives (10_state.md) -/

/-- R23: increment adds 1 modulo 2^b, and 2^b increments return to the original value. -/
def Obligations.IncrementWrapsAround : Prop :=
  ∀ (b : Nat) (w : BitVec b),
    (Reg.increment w).toNat = (w.toNat + 1) % 2 ^ b
    ∧ (w.toNat = 2 ^ b - 1 → (Reg.increment w).toNat = 0)
    ∧ (Reg.increment^[2 ^ b]) w = w

/-- R26: add keeps the exact sum as word and carry, the worked example holds, and adding 2^b - x undoes adding x with its
carry saying whether that second sum overflowed. -/
def Obligations.AddCarriesAndInverts : Prop :=
  (∀ (b : Nat) (w x : BitVec b),
    (Reg.add w x).1.toNat = (w.toNat + x.toNat) % 2 ^ b
    ∧ (Reg.add w x).2 = (if 2 ^ b ≤ w.toNat + x.toNat then 1 else 0)
    ∧ (Reg.add (Reg.add w x).1 (BitVec.ofNat b (2 ^ b - x.toNat))).1 = w
    ∧ (Reg.add (Reg.add w x).1 (BitVec.ofNat b (2 ^ b - x.toNat))).2
        = (if 2 ^ b ≤ (w.toNat + x.toNat) % 2 ^ b + (2 ^ b - x.toNat) % 2 ^ b then 1 else 0))
  ∧ Reg.add (5 : BitVec 3) 6 = (3, 1)

/-- R28, R29: what each bit of a shift is, and the inverse law, both ways round. -/
def Obligations.ShiftsMoveBitsAndInvert : Prop :=
  ∀ (b : Nat) (w : BitVec b) (c : Bit), 0 < b →
    (∀ i, i + 1 < b → (Reg.shiftRight w c).1.getLsbD i = w.getLsbD (i + 1))
    ∧ (Reg.shiftRight w c).1.getLsbD (b - 1) = c.getLsbD 0
    ∧ (Reg.shiftRight w c).2.getLsbD 0 = w.getLsbD 0
    ∧ (∀ i, 0 < i → i < b → (Reg.shiftLeft w c).1.getLsbD i = w.getLsbD (i - 1))
    ∧ (Reg.shiftLeft w c).1.getLsbD 0 = c.getLsbD 0
    ∧ (Reg.shiftLeft w c).2.getLsbD 0 = w.getLsbD (b - 1)
    ∧ Reg.shiftLeft (Reg.shiftRight w c).1 (Reg.shiftRight w c).2 = (w, c)
    ∧ Reg.shiftRight (Reg.shiftLeft w c).1 (Reg.shiftLeft w c).2 = (w, c)

/-- R22, R24, R25, R27: transfer reduces modulo 2^b, clear gives 0, complement gives 2^b - 1 - w, logicAnd is bitwise and
never above the word. -/
def Obligations.TransferClearAndComplement : Prop :=
  ∀ (b : Nat) (w x : BitVec b) (v : Nat),
    (Reg.transfer b v).toNat = v % 2 ^ b
    ∧ (Reg.clear w).toNat = 0
    ∧ (Reg.complement w).toNat = (2 ^ b - 1) - w.toNat
    ∧ (∀ i, (Reg.logicAnd w x).getLsbD i = (w.getLsbD i && x.getLsbD i))
    ∧ (Reg.logicAnd w x).toNat ≤ w.toNat

/-! ### The micro-step (40_fetch_decode.md) -/

/-- R121: no micro-step with a fault recorded, none with S = 0 (decisions D5 and D10, logs 5 and 6). -/
def Obligations.GuardStopsTheMachine : Prop :=
  ∀ s : State,
    (s.fault ≠ none → step s = .refused .faultRecorded)
    ∧ (s.fault = none → s.runFlag = 0 → step s = .refused .halted)

/-- R124, R125, R126: the three micro-steps every instruction shares, and the fetch fault (decision D1, log 4). I is
written at T2 (decision D4, log 10). -/
def Obligations.CommonMicroSteps : Prop :=
  ∀ s : State, Running s →
    (s.sc = 0 → step s = .next { s with ar := s.pc, sc := 1 })
    ∧ (s.sc = 1 → ∀ v, s.mem.read s.ar.toNat = some v →
        step s = .next { s with ir := v, pc := s.pc + 1, sc := 2 })
    ∧ (s.sc = 1 → s.mem.read s.ar.toNat = none → step s = .fault (.uninitializedRead s.ar))
    ∧ (s.sc = 2 → step s = .next { s with ar := s.ir.extractLsb' 0 12, indFlag := s.ir.extractLsb' 15 1, sc := 3 })

/-- R127: T3 of a memory-reference word; the fault of an unset pointer is decision D1, log 4. -/
def Obligations.IndirectDereferenceAtT3 : Prop :=
  ∀ s : State, Running s → s.sc = 3 → s.ir.extractLsb' 12 3 ≠ 7 →
    (s.ir.extractLsb' 15 1 = 0 → step s = .next { s with sc := 4 })
    ∧ (s.ir.extractLsb' 15 1 = 1 → ∀ v, s.mem.read s.ar.toNat = some v →
        step s = .next { s with ar := v.extractLsb' 0 12, sc := 4 })
    ∧ (s.ir.extractLsb' 15 1 = 1 → s.mem.read s.ar.toNat = none → step s = .fault (.uninitializedRead s.ar))

/-- R120, R122, R134: from T3 on a micro-step is exec of the instruction in IR; and from a boundary, when the word at PC is
`w`, three micro-steps fetch it and the fourth is exec of the instruction `w` decodes to. -/
def Obligations.StepRunsTheDecodedInstruction : Prop :=
  (∀ s : State, Running s → 3 ≤ s.sc.toNat → step s = exec (decode s.ir) s)
  ∧ (∀ (s : State) (w : Word), AtBoundary s → s.mem.read s.pc.toNat = some w →
      runSteps 3 s = .next { fetched s w with sc := 3 }
      ∧ runSteps 4 s = exec (decode w) { fetched s w with sc := 3 })

/-- R122: the step that decodes and dispatches is, in every state, the step of the (T, D) table with its priority-ordered
list of masks. -/
def Obligations.StepFollowsTheScheduleTable : Prop :=
  ∀ s : State, step s = Schedule.microStep .fault s

/-- R64 and decision D1: a run that ends under the policy `fault` without a fault ends in the same state under the policy
`zero`, and under `zero` no micro-step reports an unset cell. -/
def Obligations.RunsWithoutFaultIgnoreThePolicy : Prop :=
  (∀ (n : Nat) (s t : State), runUnder .fault n s = .halted t → runUnder .zero n s = .halted t)
  ∧ ∀ (s : State) (a : Addr), Schedule.microStep .zero s ≠ .fault (.uninitializedRead a)

/-- R131: exactly the listed pairs (T, D) are refused as InvalidSequenceState (decision D6, log 7). -/
def Obligations.InvalidPairsAreRefused : Prop :=
  ∀ s : State, Running s →
    (step s = .refused (.invalidSequenceState s.sc (s.ir.extractLsb' 12 3))
      ↔ ((s.sc = 4 ∨ s.sc = 5 ∨ s.sc = 6) ∧ s.ir.extractLsb' 12 3 = 7)
        ∨ (s.sc = 5 ∧ (s.ir.extractLsb' 12 3 = 3 ∨ s.ir.extractLsb' 12 3 = 4))
        ∨ (s.sc = 6 ∧ s.ir.extractLsb' 12 3 ≠ 6)
        ∨ s.sc = 7)

/-! ### The invariant -/

/-- R21, R37, R45, R60, R132: every micro-step keeps the invariant, from every state that meets it. -/
def Obligations.EveryStepKeepsTheInvariant : Prop :=
  ∀ s t : State, MachineInv s → step s = .next t → MachineInv t

/-- R44, R280: the state after construction (the values of AR, DR, AC, IR, I, E, and PC = 0, S = 0, are the spec's decision
D3, logs 2 and 3; `launched` is the model's own, log 13), and it meets the invariant. -/
def Obligations.ConstructionState : Prop :=
  (∀ r : Config.ResetValues,
    (State.resetWith r).sc = 0 ∧ (State.resetWith r).runFlag = 0 ∧ (State.resetWith r).pc = 0
    ∧ (State.resetWith r).fault = none ∧ (∀ a, (State.resetWith r).mem.read a = none)
    ∧ (State.resetWith r).ar = r.ar ∧ (State.resetWith r).dr = r.dr ∧ (State.resetWith r).ac = r.ac
    ∧ (State.resetWith r).ir = r.ir ∧ (State.resetWith r).indFlag = r.indFlag ∧ (State.resetWith r).e = r.e
    ∧ (State.resetWith r).launched = false ∧ MachineInv (State.resetWith r))
  ∧ State.reset = State.resetWith { ar := 0, dr := 0, ac := 0, ir := 0, indFlag := 0, e := 0 }

/-- R284, R132, R250: every move of the host keeps the invariant. -/
def Obligations.HostMovesKeepTheInvariant : Prop :=
  ∀ s : State, MachineInv s →
    (∀ a v t, hostWrite s a v = .ok t → MachineInv t)
    ∧ (∀ text t entry, load text s = .loaded t entry → MachineInv t)
    ∧ (∀ entry t, startRun entry s = .ok t → MachineInv t)
    ∧ MachineInv (hostStep s)

/-- R45, R254: a machine that meets the invariant is never refused for its control state (logs 7 and 8 say where it would
be). -/
def Obligations.ReachableControlIsNeverRefused : Prop :=
  ∀ s : State, MachineInv s →
    (∀ t d, step s ≠ .refused (.invalidSequenceState t d)) ∧ (∀ t, step s ≠ .refused (.notAtDispatch t))

/-! ### Memory-reference instructions (41_memory_reference.md) -/

/-- R141, R142, R143: T4 and T5 of AND, ADD and LDA, in both modes: the operand read or its fault (decision D1,
log 4), then the result. -/
def Obligations.LoadAndArithmeticMicroSteps : Prop :=
  ∀ (mode : AddrMode) (addr : Addr) (s : State),
    (s.sc = 4 → ∀ v, s.mem.read s.ar.toNat = some v →
      exec (.and mode addr) s = .next { s with dr := v, sc := 5 }
      ∧ exec (.add mode addr) s = .next { s with dr := v, sc := 5 }
      ∧ exec (.lda mode addr) s = .next { s with dr := v, sc := 5 })
    ∧ (s.sc = 4 → s.mem.read s.ar.toNat = none →
      exec (.and mode addr) s = .fault (.uninitializedRead s.ar)
      ∧ exec (.add mode addr) s = .fault (.uninitializedRead s.ar)
      ∧ exec (.lda mode addr) s = .fault (.uninitializedRead s.ar))
    ∧ (s.sc = 5 →
      exec (.and mode addr) s = .next { s with ac := s.ac &&& s.dr, sc := 0 }
      ∧ exec (.add mode addr) s
          = .next { s with
              ac := BitVec.ofNat 16 (s.ac.toNat + s.dr.toNat)
              e := if 65536 ≤ s.ac.toNat + s.dr.toNat then 1 else 0
              sc := 0 }
      ∧ exec (.lda mode addr) s = .next { s with ac := s.dr, sc := 0 })

/-- R144, R145: T4 of STA and of BUN, in both modes. STA never reads its target, set or unset. -/
def Obligations.StoreAndBranchMicroSteps : Prop :=
  ∀ (mode : AddrMode) (addr : Addr) (s : State), s.sc = 4 →
    exec (.bun mode addr) s = .next { s with pc := s.ar, sc := 0 }
    ∧ ∃ m : Memory,
        exec (.sta mode addr) s = .next { s with mem := m, sc := 0 }
        ∧ m.read s.ar.toNat = some s.ac
        ∧ ∀ a, a ≠ s.ar.toNat → m.read a = s.mem.read a

/-- R146: T4 and T5 of BSA: the return address, zero-extended, at the old AR; AR incremented with wrap, both
from the state before T4 (decision D8, log 11); then the branch. -/
def Obligations.BranchAndSaveMicroSteps : Prop :=
  ∀ (mode : AddrMode) (addr : Addr) (s : State),
    (s.sc = 4 →
      ∃ m : Memory,
        exec (.bsa mode addr) s = .next { s with mem := m, ar := s.ar + 1, sc := 5 }
        ∧ m.read s.ar.toNat = some (BitVec.ofNat 16 s.pc.toNat)
        ∧ ∀ a, a ≠ s.ar.toNat → m.read a = s.mem.read a)
    ∧ (s.sc = 5 → exec (.bsa mode addr) s = .next { s with pc := s.ar, sc := 0 })

/-- R147: T4, T5 and T6 of ISZ: the operand read or its fault (decision D1, log 4), the increment without carry, the write back and the skip on
zero. -/
def Obligations.IncrementAndSkipMicroSteps : Prop :=
  ∀ (mode : AddrMode) (addr : Addr) (s : State),
    (s.sc = 4 → ∀ v, s.mem.read s.ar.toNat = some v → exec (.isz mode addr) s = .next { s with dr := v, sc := 5 })
    ∧ (s.sc = 4 → s.mem.read s.ar.toNat = none → exec (.isz mode addr) s = .fault (.uninitializedRead s.ar))
    ∧ (s.sc = 5 → exec (.isz mode addr) s = .next { s with dr := s.dr + 1, sc := 6 })
    ∧ (s.sc = 6 →
      ∃ m : Memory,
        exec (.isz mode addr) s
          = .next { s with mem := m, pc := if s.dr = 0 then s.pc + 1 else s.pc, sc := 0 }
        ∧ m.read s.ar.toNat = some s.dr
        ∧ ∀ a, a ≠ s.ar.toNat → m.read a = s.mem.read a)

/-- R148, R140, R294: AND, ADD and LDA from boundary to boundary, six micro-steps, with the whole state they leave. -/
def Obligations.LoadAndArithmeticInstructions : Prop :=
  ∀ (s : State) (mode : AddrMode) (addr ea : Addr) (v : Word),
    effectiveAddr .fault s.mem mode addr = .ok ea → s.mem.read ea.toNat = some v →
    (AboutToRun s (.and mode addr) →
      runSteps 6 s = .next { fetched s (encode (.and mode addr)) with ar := ea, dr := v, ac := s.ac &&& v })
    ∧ (AboutToRun s (.add mode addr) →
      runSteps 6 s = .next { fetched s (encode (.add mode addr)) with
        ar := ea
        dr := v
        ac := BitVec.ofNat 16 (s.ac.toNat + v.toNat)
        e := if 65536 ≤ s.ac.toNat + v.toNat then 1 else 0 })
    ∧ (AboutToRun s (.lda mode addr) →
      runSteps 6 s = .next { fetched s (encode (.lda mode addr)) with ar := ea, dr := v, ac := v })

/-- R148, R144, R145, R294: STA and BUN from boundary to boundary, five micro-steps. STA leaves the accumulator at the
effective address and every other cell as before; BUN leaves the effective address in PC and memory as before. -/
def Obligations.StoreAndBranchInstructions : Prop :=
  ∀ (s : State) (mode : AddrMode) (addr ea : Addr), effectiveAddr .fault s.mem mode addr = .ok ea →
    (AboutToRun s (.sta mode addr) →
      ∃ m : Memory,
        runSteps 5 s = .next { fetched s (encode (.sta mode addr)) with ar := ea, mem := m }
        ∧ m.read ea.toNat = some s.ac
        ∧ ∀ a, a ≠ ea.toNat → m.read a = s.mem.read a)
    ∧ (AboutToRun s (.bun mode addr) →
      runSteps 5 s = .next { fetched s (encode (.bun mode addr)) with ar := ea, pc := ea })

/-- R148, R146, R294: BSA from boundary to boundary, six micro-steps: the return address at the effective address, control
at the word after it. -/
def Obligations.BranchAndSaveInstruction : Prop :=
  ∀ (s : State) (mode : AddrMode) (addr ea : Addr),
    AboutToRun s (.bsa mode addr) → effectiveAddr .fault s.mem mode addr = .ok ea →
    ∃ m : Memory,
      runSteps 6 s = .next { fetched s (encode (.bsa mode addr)) with ar := ea + 1, pc := ea + 1, mem := m }
      ∧ m.read ea.toNat = some (BitVec.ofNat 16 (s.pc + 1).toNat)
      ∧ ∀ a, a ≠ ea.toNat → m.read a = s.mem.read a

/-- R148, R147, R288, R294: ISZ from boundary to boundary, seven micro-steps: the incremented word at the effective address,
the next word skipped exactly when it is 0. -/
def Obligations.IncrementAndSkipInstruction : Prop :=
  ∀ (s : State) (mode : AddrMode) (addr ea : Addr) (v : Word),
    AboutToRun s (.isz mode addr) → effectiveAddr .fault s.mem mode addr = .ok ea → s.mem.read ea.toNat = some v →
    ∃ m : Memory,
      runSteps 7 s = .next { fetched s (encode (.isz mode addr)) with
        ar := ea
        dr := v + 1
        pc := if v = 0xFFFF then s.pc + 2 else s.pc + 1
        mem := m }
      ∧ m.read ea.toNat = some (v + 1)
      ∧ ∀ a, a ≠ ea.toNat → m.read a = s.mem.read a

/-- R146, R145: a call and its return. A BSA at any address, direct or indirect, whose effective address is SUB, with
`BUN SUB I` in the word after SUB, comes back to the word after the call in eleven micro-steps with AC, E and DR as they
were. -/
def Obligations.SubroutineReturnsToItsCaller : Prop :=
  ∀ (s : State) (mode : AddrMode) (addr sub : Addr),
    AboutToRun s (.bsa mode addr) → effectiveAddr .fault s.mem mode addr = .ok sub →
    s.mem.read (sub + 1).toNat = some (encode (.bun .indirect sub)) →
    ∃ t : State,
      runSteps 11 s = .next t ∧ AtBoundary t ∧ t.pc = s.pc + 1 ∧ t.ac = s.ac ∧ t.e = s.e ∧ t.dr = s.dr
      ∧ t.mem.read sub.toNat = some (BitVec.ofNat 16 (s.pc + 1).toNat)
      ∧ ∀ a, a ≠ sub.toNat → t.mem.read a = s.mem.read a

/-- R75, R144, R291: a store to the next word takes effect before that word is fetched: after STA to PC + 1 the next
instruction is the one the accumulator's pattern decodes to. -/
def Obligations.StoreIsSeenByTheNextFetch : Prop :=
  ∀ (s : State) (mode : AddrMode) (addr : Addr),
    AboutToRun s (.sta mode addr) → effectiveAddr .fault s.mem mode addr = .ok (s.pc + 1) →
    ∃ t : State, runSteps 8 s = .next t ∧ t.ir = s.ac ∧ t.sc = 3 ∧ t.pc = s.pc + 2 ∧ step t = exec (decode s.ac) t

/-! ### Register-reference instructions (42_register_reference.md) -/

/-- R161 to R164: CLA, CLE, CMA and CME at T3. -/
def Obligations.ClearAndComplementEffects : Prop :=
  ∀ (low : SelField) (s : State), s.sc = 3 →
    exec (.cla low) s = .next { s with ac := 0, sc := 0 }
    ∧ exec (.cle low) s = .next { s with e := 0, sc := 0 }
    ∧ (∃ x : Word, exec (.cma low) s = .next { s with ac := x, sc := 0 } ∧ x.toNat = 65535 - s.ac.toNat)
    ∧ (∃ x : Bit, exec (.cme low) s = .next { s with e := x, sc := 0 } ∧ x.toNat = 1 - s.e.toNat)

/-- R165, R166: CIR and CIL at T3, as the arithmetic of the rules. -/
def Obligations.CirculateEffects : Prop :=
  ∀ (low : SelField) (s : State), s.sc = 3 →
    exec (.cir low) s
      = .next { s with
          ac := BitVec.ofNat 16 (s.e.toNat * 32768 + s.ac.toNat / 2)
          e := BitVec.ofNat 1 (s.ac.toNat % 2)
          sc := 0 }
    ∧ exec (.cil low) s
      = .next { s with
          ac := BitVec.ofNat 16 (s.ac.toNat * 2 % 65536 + s.e.toNat)
          e := BitVec.ofNat 1 (s.ac.toNat / 32768)
          sc := 0 }

/-- R165, R166, R163, R164: in every state CIL undoes CIR and CIR undoes CIL, seventeen of either are the identity, and two
CMA or two CME are the identity. -/
def Obligations.CirculatesInvertAndRepeat : Prop :=
  ∀ s : State,
    cilOp (cirOp s) = s ∧ cirOp (cilOp s) = s ∧ (cirOp^[17]) s = s ∧ (cilOp^[17]) s = s
    ∧ cmaOp (cmaOp s) = s ∧ cmeOp (cmeOp s) = s

/-- R167, R163: INC at T3 with E unchanged, and CMA then INC is two's-complement negation with E unchanged. -/
def Obligations.IncrementLeavesCarryAlone : Prop :=
  (∀ (low : SelField) (s : State), s.sc = 3 →
    exec (.inc low) s = .next { s with ac := BitVec.ofNat 16 (s.ac.toNat + 1), sc := 0 })
  ∧ ∀ s : State, incOp (cmaOp s) = { s with ac := BitVec.ofNat 16 (65536 - s.ac.toNat) }

/-- R168 to R172, R174, R288: the four skips at T3, each passing exactly one word or none; HLT, which clears S; and the
word 0x7000, which does nothing (decision D26, log 12). -/
def Obligations.SkipHaltAndEmptySelectEffects : Prop :=
  ∀ (low : SelField) (s : State), s.sc = 3 →
    exec (.spa low) s = .next { s with pc := if s.ac.toNat < 32768 then s.pc + 1 else s.pc, sc := 0 }
    ∧ exec (.sna low) s = .next { s with pc := if 32768 ≤ s.ac.toNat then s.pc + 1 else s.pc, sc := 0 }
    ∧ exec (.sza low) s = .next { s with pc := if s.ac.toNat = 0 then s.pc + 1 else s.pc, sc := 0 }
    ∧ exec (.sze low) s = .next { s with pc := if s.e = 0 then s.pc + 1 else s.pc, sc := 0 }
    ∧ exec .hlt s = .next { s with runFlag := 0, sc := 0 }
    ∧ exec .rriNone s = .next { s with sc := 0 }

/-- R175, R294: every register-reference word from boundary to boundary, four micro-steps, with the whole state it leaves (the word
0x7000: decision D26, log 12). -/
def Obligations.RegisterReferenceInstructions : Prop :=
  ∀ (s : State) (low : SelField),
    (AboutToRun s (.cla low) → runSteps 4 s = .next { fetched s (encode (.cla low)) with ac := 0 })
    ∧ (AboutToRun s (.cle low) → runSteps 4 s = .next { fetched s (encode (.cle low)) with e := 0 })
    ∧ (AboutToRun s (.cma low) → runSteps 4 s = .next { fetched s (encode (.cma low)) with ac := 0xFFFF - s.ac })
    ∧ (AboutToRun s (.cme low) → runSteps 4 s = .next { fetched s (encode (.cme low)) with e := 1 - s.e })
    ∧ (AboutToRun s (.cir low) → runSteps 4 s = .next { fetched s (encode (.cir low)) with
        ac := BitVec.ofNat 16 (s.e.toNat * 32768 + s.ac.toNat / 2), e := s.ac.extractLsb' 0 1 })
    ∧ (AboutToRun s (.cil low) → runSteps 4 s = .next { fetched s (encode (.cil low)) with
        ac := BitVec.ofNat 16 (s.ac.toNat * 2 % 65536 + s.e.toNat), e := s.ac.extractLsb' 15 1 })
    ∧ (AboutToRun s (.inc low) → runSteps 4 s = .next { fetched s (encode (.inc low)) with ac := s.ac + 1 })
    ∧ (AboutToRun s (.spa low) → runSteps 4 s = .next { fetched s (encode (.spa low)) with
        pc := if s.ac.toNat < 32768 then s.pc + 2 else s.pc + 1 })
    ∧ (AboutToRun s (.sna low) → runSteps 4 s = .next { fetched s (encode (.sna low)) with
        pc := if s.ac.toNat < 32768 then s.pc + 1 else s.pc + 2 })
    ∧ (AboutToRun s (.sza low) → runSteps 4 s = .next { fetched s (encode (.sza low)) with
        pc := if s.ac = 0 then s.pc + 2 else s.pc + 1 })
    ∧ (AboutToRun s (.sze low) → runSteps 4 s = .next { fetched s (encode (.sze low)) with
        pc := if s.e = 0 then s.pc + 2 else s.pc + 1 })
    ∧ (AboutToRun s .hlt → runSteps 4 s = .next { fetched s (encode .hlt) with runFlag := 0 })
    ∧ (AboutToRun s .rriNone → runSteps 4 s = .next (fetched s (encode .rriNone)))

/-! ### Input-output words and faults (43_io_group.md, 60_exceptions.md) -/

/-- R191, R98: each of the seven input-output rows stops at T3 with IoNotImplemented(IR), and in no state has one a next
state (decision D2, log 9). -/
def Obligations.InputOutputRowsStop : Prop :=
  ∀ (low : SelField) (s : State), ∀ i ∈ [Instr.inp low, .out low, .ski low, .sko low, .ion low, .iof low, .ioNone low],
    (s.sc = 3 → exec i s = .fault (.ioNotImplemented s.ir)) ∧ ∀ t, exec i s ≠ .next t

/-- R191, R259: an input-output word at PC is fetched in three micro-steps; the fourth faults (decision D2,
log 9), and the state the host then finds is the one before it with the fault recorded (decision D10, log 5). -/
def Obligations.InputOutputWordFaultsAtT3 : Prop :=
  ∀ (s : State) (w : Word), AtBoundary s → s.mem.read s.pc.toNat = some w → 0xF000 ≤ w.toNat →
    ∃ t : State,
      runSteps 3 s = .next t ∧ t = { fetched s w with indFlag := 1, sc := 3 }
      ∧ step t = .fault (.ioNotImplemented w)
      ∧ hostStep t = { t with fault := some (.ioNotImplemented w) }

/-- R253: IoNotImplemented is raised by exactly the running states at T3 with D = 7 and bit 15 set, with the word in IR
(decision D2, log 9). -/
def Obligations.IoNotImplementedExactly : Prop :=
  ∀ (s : State) (w : Word),
    step s = .fault (.ioNotImplemented w)
      ↔ Running s ∧ s.sc = 3 ∧ s.ir.extractLsb' 12 3 = 7 ∧ s.ir.extractLsb' 15 1 = 1 ∧ w = s.ir

/-- R252, R255: UninitializedRead is raised by exactly T1, T3 of an indirect memory-reference word and T4 of AND, ADD, LDA
and ISZ, when the cell at AR is unset, with that address (decision D1, log 4). -/
def Obligations.UninitializedReadExactly : Prop :=
  ∀ (s : State) (a : Addr),
    step s = .fault (.uninitializedRead a)
      ↔ Running s ∧ a = s.ar ∧ s.mem.read s.ar.toNat = none
        ∧ (s.sc = 1
          ∨ (s.sc = 3 ∧ s.ir.extractLsb' 12 3 ≠ 7 ∧ s.ir.extractLsb' 15 1 = 1)
          ∨ (s.sc = 4 ∧ (s.ir.extractLsb' 12 3 = 0 ∨ s.ir.extractLsb' 12 3 = 1 ∨ s.ir.extractLsb' 12 3 = 2
              ∨ s.ir.extractLsb' 12 3 = 6)))

/-- R250, R46, R121: a fault leaves every register and cell as it was, is recorded, and no micro-step follows, however often
the host steps (decision D10, log 5). -/
def Obligations.FaultKeepsTheStateForGood : Prop :=
  ∀ (s : State) (f : Fault), step s = .fault f →
    hostStep s = { s with fault := some f }
    ∧ step (hostStep s) = .refused .faultRecorded
    ∧ ∀ n : Nat, (hostStep^[n + 1]) s = { s with fault := some f }

/-! ### Rules of the whole machine (10_state.md, 20_memory.md) -/

/-- R40: what E is after any micro-step: the carry at T5 of ADD, the four register-reference writers at T3, unchanged
everywhere else. -/
def Obligations.ExtensionBitRule : Prop :=
  ∀ s t : State, step s = .next t →
    t.e = (if s.sc = 5 ∧ s.ir.extractLsb' 12 3 = 1 then (if 65536 ≤ s.ac.toNat + s.dr.toNat then 1 else 0)
      else if s.sc = 3 ∧ (decode s.ir).mnemonic = "CLE" then 0
      else if s.sc = 3 ∧ (decode s.ir).mnemonic = "CME" then ~~~s.e
      else if s.sc = 3 ∧ (decode s.ir).mnemonic = "CIR" then s.ac.extractLsb' 0 1
      else if s.sc = 3 ∧ (decode s.ir).mnemonic = "CIL" then s.ac.extractLsb' 15 1
      else s.e)

/-- R31, R35: AC is written at T5 of AND, ADD and LDA and at T3 of CLA, CMA, CIR, CIL and INC, and nowhere else. -/
def Obligations.AccumulatorWriters : Prop :=
  ∀ s t : State, step s = .next t → t.ac ≠ s.ac →
    (s.sc = 5 ∧ (s.ir.extractLsb' 12 3 = 0 ∨ s.ir.extractLsb' 12 3 = 1 ∨ s.ir.extractLsb' 12 3 = 2))
    ∨ (s.sc = 3 ∧ (decode s.ir).mnemonic ∈ ["CLA", "CMA", "CIR", "CIL", "INC"])

/-- R34, R36: IR is written at T1 only, with the word at AR; DR at T4 of AND, ADD, LDA and ISZ, with the word at AR, and at
T5 of ISZ, incremented, only. -/
def Obligations.InstructionAndDataRegisterRules : Prop :=
  ∀ s t : State, step s = .next t →
    (s.sc = 1 → s.mem.read s.ar.toNat = some t.ir)
    ∧ (s.sc ≠ 1 → t.ir = s.ir)
    ∧ (s.sc = 4 ∧ (s.ir.extractLsb' 12 3 = 0 ∨ s.ir.extractLsb' 12 3 = 1 ∨ s.ir.extractLsb' 12 3 = 2
        ∨ s.ir.extractLsb' 12 3 = 6) → s.mem.read s.ar.toNat = some t.dr)
    ∧ (s.sc = 5 ∧ s.ir.extractLsb' 12 3 = 6 → t.dr = s.dr + 1)
    ∧ (¬ (s.sc = 4 ∧ (s.ir.extractLsb' 12 3 = 0 ∨ s.ir.extractLsb' 12 3 = 1 ∨ s.ir.extractLsb' 12 3 = 2
        ∨ s.ir.extractLsb' 12 3 = 6)) → ¬ (s.sc = 5 ∧ s.ir.extractLsb' 12 3 = 6) → t.dr = s.dr)

/-- R33, R288: what PC is after any micro-step: incremented at T1, AR at T4 of BUN and T5 of BSA, incremented by a taken skip,
unchanged everywhere else. -/
def Obligations.ProgramCounterRule : Prop :=
  ∀ s t : State, step s = .next t →
    t.pc = (if s.sc = 1 then s.pc + 1
      else if s.sc = 4 ∧ s.ir.extractLsb' 12 3 = 4 then s.ar
      else if s.sc = 5 ∧ s.ir.extractLsb' 12 3 = 5 then s.ar
      else if s.sc = 6 ∧ s.dr = 0 then s.pc + 1
      else if s.sc = 3 ∧ (decode s.ir).mnemonic = "SPA" ∧ s.ac.toNat < 32768 then s.pc + 1
      else if s.sc = 3 ∧ (decode s.ir).mnemonic = "SNA" ∧ 32768 ≤ s.ac.toNat then s.pc + 1
      else if s.sc = 3 ∧ (decode s.ir).mnemonic = "SZA" ∧ s.ac = 0 then s.pc + 1
      else if s.sc = 3 ∧ (decode s.ir).mnemonic = "SZE" ∧ s.e = 0 then s.pc + 1
      else s.pc)

/-- R32, R123: what AR is after any micro-step. -/
def Obligations.AddressRegisterRule : Prop :=
  ∀ s t : State, step s = .next t →
    (s.sc = 0 → t.ar = s.pc)
    ∧ (s.sc = 2 → t.ar = s.ir.extractLsb' 0 12)
    ∧ (s.sc = 3 ∧ s.ir.extractLsb' 12 3 ≠ 7 ∧ s.ir.extractLsb' 15 1 = 1 →
        ∃ v, s.mem.read s.ar.toNat = some v ∧ t.ar = v.extractLsb' 0 12)
    ∧ (s.sc = 4 ∧ s.ir.extractLsb' 12 3 = 5 → t.ar = s.ar + 1)
    ∧ (s.sc ≠ 0 → s.sc ≠ 2 → ¬ (s.sc = 3 ∧ s.ir.extractLsb' 12 3 ≠ 7 ∧ s.ir.extractLsb' 15 1 = 1) →
        ¬ (s.sc = 4 ∧ s.ir.extractLsb' 12 3 = 5) → t.ar = s.ar)

/-- R39: every micro-step either advances SC by one or clears it, it never reaches 7, and it is
cleared exactly on the last micro-step of the word's instruction. -/
def Obligations.SequenceCounterRule : Prop :=
  ∀ s t : State, step s = .next t →
    (t.sc = s.sc + 1 ∨ t.sc = 0)
    ∧ t.sc ≠ 7
    ∧ (t.sc = 0 ↔ 3 ≤ s.sc.toNat ∧ s.sc.toNat + 1 = Schedule.microStepsOf s.ir)

/-- R41, R133: only T3 of the one word HLT clears S, and no micro-step sets it. A micro-step WITH A NEXT STATE leaves the fault
record alone: one that faults has no next state here, and its record (R46, R250) is written by `hostStep` (the model's
choice, log 5; FaultKeepsTheStateForGood). It leaves `launched` alone too, the model's own field (its choice, log 13). -/
def Obligations.OnlyHaltClearsTheRunFlag : Prop :=
  ∀ s t : State, step s = .next t →
    t.fault = s.fault ∧ t.launched = s.launched ∧ s.runFlag = 1
    ∧ (t.runFlag = 0 ↔ s.sc = 3 ∧ s.ir = 0x7001)
    ∧ (t.runFlag = 0 → t = { s with runFlag := 0, sc := 0 })

/-- R63, R68: memory after any micro-step: the one cell at AR is written by T4 of STA, T4 of BSA and T6 of ISZ, and every
other cell, and every cell in every other micro-step, reads as before. -/
def Obligations.MemoryRule : Prop :=
  ∀ s t : State, step s = .next t → ∀ a : Nat,
    t.mem.read a =
      (if a = s.ar.toNat ∧ s.sc = 4 ∧ s.ir.extractLsb' 12 3 = 3 then some s.ac
       else if a = s.ar.toNat ∧ s.sc = 4 ∧ s.ir.extractLsb' 12 3 = 5 then some (BitVec.ofNat 16 s.pc.toNat)
       else if a = s.ar.toNat ∧ s.sc = 6 then some s.dr
       else s.mem.read a)

/-- R37 (decision D4, log 10): a run cannot tell what the register I holds: two machines that differ in I alone give, step by step, results that
differ in I alone. -/
def Obligations.IndirectFlagIsUnobservable : Prop :=
  ∀ (n : Nat) (s : State) (b : Bit),
    (∀ t, runSteps n s = .next t → ∃ c, runSteps n { s with indFlag := b } = .next { t with indFlag := c })
    ∧ (∀ f, runSteps n s = .fault f → runSteps n { s with indFlag := b } = .fault f)
    ∧ (∀ r, runSteps n s = .refused r → runSteps n { s with indFlag := b } = .refused r)

/-- R44 (the reset values of AR, DR, IR and I are unobservable): no instruction reads the AR, DR, IR or I an earlier one
left. From a boundary, machines that differ in these four alone agree at the next boundary on everything but DR. -/
def Obligations.UnobservableResetValues : Prop :=
  ∀ (s : State) (w : Word) (ar : Addr) (dr ir : Word) (i : Bit) (t : State),
    AtBoundary s → s.mem.read s.pc.toNat = some w →
    runSteps (Schedule.microStepsOf w) s = .next t →
    ∃ dr', runSteps (Schedule.microStepsOf w) { s with ar := ar, dr := dr, ir := ir, indFlag := i }
      = .next { t with dr := dr' }

/-- R134, R294: an instruction that meets no fault takes from boundary to boundary exactly the number of micro-steps its word
fixes, and SC counts them. -/
def Obligations.InstructionTakesItsMicroSteps : Prop :=
  ∀ (s : State) (w : Word), AtBoundary s → s.mem.read s.pc.toNat = some w →
    SafeFor (Schedule.microStepsOf w) s →
    (∃ t, runSteps (Schedule.microStepsOf w) s = .next t ∧ t.sc = 0)
    ∧ ∀ k, 0 < k → k < Schedule.microStepsOf w → ∃ u, runSteps k s = .next u ∧ u.sc.toNat = k

/-! ### The host and the run (40_fetch_decode.md, 70_reset_and_hazards.md) -/

/-- R132, D9: `run` is accepted exactly on a fresh control unit with an entry below 4096, and writes PC and S only
(`launched` is the model's mark of the one call, log 13). -/
def Obligations.RunSeedsProgramCounterAndFlag : Prop :=
  ∀ (s t : State) (entry : Nat),
    startRun entry s = .ok t
      ↔ s.launched = false ∧ s.fault = none ∧ s.sc = 0 ∧ entry < 4096
        ∧ t = { s with pc := BitVec.ofNat 12 entry, runFlag := 1, launched := true }

/-- R133, R132: a run that ends successfully ends in the state of T3 of HLT, whatever program it ran: its last micro-step is
that of a state `u` at T3 of 0x7001, and the end is `u` with SC and S cleared. Where the run began at a boundary, the end is
that of a HLT fetched at a boundary state `b`: PC is the address of the HLT plus one, AR, IR and I are the fetch's, and AC, DR,
E and memory are as the program left them. -/
def Obligations.RunEndsOnlyThroughHalt : Prop :=
  ∀ (n : Nat) (s t : State), MachineInv s → Running s → runFor n s = .halted t →
    t.runFlag = 0 ∧ t.sc = 0 ∧ t.ir = 0x7001 ∧ t.ar = 0x001 ∧ t.fault = none
    ∧ (∃ (k : Nat) (u : State), k < n ∧ runSteps k s = .next u ∧ u.sc = 3 ∧ u.ir = 0x7001 ∧ step u = .next t
        ∧ t = { u with sc := 0, runFlag := 0 } ∧ runSteps (k + 1) s = .next t)
    ∧ (s.sc = 0 → ∃ (j : Nat) (b : State), j + 4 ≤ n ∧ runSteps j s = .next b ∧ AtBoundary b
        ∧ b.mem.read b.pc.toNat = some 0x7001 ∧ t = { fetched b 0x7001 with runFlag := 0 })

/-! ### The assembler (44_assembler.md) -/

/-- R235, R221 to R223: the word the assembler emits for an instruction statement decodes to that instruction. -/
def Obligations.AssemblerAgreesWithDecoder : Prop :=
  (∀ (op : Assembler.MemOp) (a : Nat) (mode : AddrMode), a < 4096 →
    decode (Assembler.memWord op a mode) = Assembler.memInstr op mode (BitVec.ofNat 12 a))
  ∧ (∀ op, decode (Assembler.regWord op) = Assembler.regInstr op)
  ∧ (∀ op, decode (Assembler.ioWord op) = Assembler.ioInstr op)

/-- R217, R234, R226 (the counter that does not wrap and its range error are decision D24, log 24): if assembly succeeds, every label's value is below 4096 and is an address at which a word is emitted,
and every word is emitted below 4096. -/
def Obligations.LabelsNameEmittedWords : Prop :=
  ∀ (sts : List Assembler.Stmt) (writes : List Cell) (entry : Nat),
    Assembler.assembleStmts sts = .ok writes entry →
    (∀ c ∈ writes, c.1 < 4096)
    ∧ ∃ tab, Assembler.pass1 sts 0 [] = .ok tab
      ∧ ∀ l a, (l, a) ∈ tab → a < 4096 ∧ ∃ w, (a, w) ∈ writes

/-- R213, R229, R230: DuplicateLabelError is the result exactly when a label is defined twice, whatever pass-2 errors the text
holds too (the order of errors is decision D21, log 24, unsafe there), and then nothing has been written. -/
def Obligations.DuplicateLabelsExactly : Prop :=
  ∀ sts : List Assembler.Stmt, Assembler.firstOrg sts ≠ none →
    (Assembler.assembleStmts sts = .error .duplicateLabel ↔ ¬ (labelsOf sts).Nodup)
    ∧ (¬ (labelsOf sts).Nodup → Assembler.emittedStmts sts = [])

/-- R216 (decision D18, log 22): lines after the first END are not read, and the end of the text acts as END. -/
def Obligations.LinesAfterEndAreNotRead : Prop :=
  ∀ (seenOrg : Bool) (lines rest : List (List Char)) (line : List Char),
    Assembler.parseLine line = .ok .endOfProgram →
    Assembler.parseLines seenOrg (lines ++ line :: rest) = Assembler.parseLines seenOrg lines

/-- R201, R232, R233: after a load a cell holds the last word written to it, and a cell no write names holds what it held. -/
def Obligations.LoadWritesTheImage : Prop :=
  ∀ (text : String) (s t : State) (entry : Nat), load text s = .loaded t entry →
    ∃ writes, Assembler.assemble text = .ok writes entry
      ∧ t = { s with mem := t.mem }
      ∧ ∀ a, t.mem.read a =
          (match writes.reverse.find? (fun c => decide (c.1 = a)) with
           | some c => some c.2
           | none => s.mem.read a)
end

