-- ==== Sys2Proof/Laws/Decode.lean ====
section
/-! SUPPORT. The fields of a joined word, and the join of a word's fields (30_encoding.md R90). -/

namespace Sys2Proof

/-- A field that holds no bit at or above `k` has those bits clear. -/
theorem SelField.getLsbD_of_below {low : SelField} {k : Nat} (h : SelField.below low k = true) {j : Nat} (hj : k ≤ j) :
    low.getLsbD j = false := by
  have hlt : low.toNat < 2 ^ k := by simpa [SelField.below] using h
  exact Nat.testBit_lt_two_pow (Nat.lt_of_lt_of_le hlt (Nat.pow_le_pow_right (by decide) hj))

theorem getLsbD_joinWord (i : Bit) (d : Bits3) (f : BitVec 12) (j : Nat) :
    (joinWord i d f).getLsbD j
      = if j < 12 then f.getLsbD j else if j < 15 then d.getLsbD (j - 12) else i.getLsbD (j - 15) := by
  simp only [joinWord, BitVec.getLsbD_append]
  split
  · rfl
  · split
    next h1 => rw [if_pos (by omega)]
    next h1 => rw [if_neg (by omega), show j - 12 - 3 = j - 15 by omega]

@[simp] theorem addrOf_joinWord (i : Bit) (d : Bits3) (f : BitVec 12) : addrOf (joinWord i d f) = f := by
  refine BitVec.eq_of_getLsbD_eq fun j hj => ?_
  simp [addrOf, getLsbD_joinWord, hj]

@[simp] theorem opcodeOf_joinWord (i : Bit) (d : Bits3) (f : BitVec 12) : opcodeOf (joinWord i d f) = d := by
  refine BitVec.eq_of_getLsbD_eq fun j hj => ?_
  simp [opcodeOf, getLsbD_joinWord, hj]
  intro h
  omega

@[simp] theorem ibitOf_joinWord (i : Bit) (d : Bits3) (f : BitVec 12) : ibitOf (joinWord i d f) = i := by
  refine BitVec.eq_of_getLsbD_eq fun j hj => ?_
  simp [ibitOf, getLsbD_joinWord, hj]
  intro h
  omega

/-- A word is the join of its own fields. -/
theorem joinWord_fields (w : Word) : joinWord (ibitOf w) (opcodeOf w) (addrOf w) = w := by
  refine BitVec.eq_of_getLsbD_eq fun j hj => ?_
  simp only [getLsbD_joinWord, ibitOf, opcodeOf, addrOf, BitVec.getLsbD_extractLsb']
  split
  next h => simp [h]
  next h =>
    split
    next h2 => simp [show j - 12 < 3 by omega, show 12 + (j - 12) = j by omega]
    next h2 => simp [show j = 15 by omega]

@[simp] theorem modeOf_ibitOfMode (mode : AddrMode) : modeOf (ibitOfMode mode) = mode := by
  cases mode <;> rfl

@[simp] theorem ibitOfMode_modeOf (b : Bit) : ibitOfMode (modeOf b) = b := by
  revert b; decide

/-! ### Decoding by class (R91) -/

theorem decode_and {w : Word} (h : opcodeOf w = 0) : decode w = .and (modeOf (ibitOf w)) (addrOf w) := by
  simp [decode, h]

theorem decode_add {w : Word} (h : opcodeOf w = 1) : decode w = .add (modeOf (ibitOf w)) (addrOf w) := by
  simp [decode, h]

theorem decode_lda {w : Word} (h : opcodeOf w = 2) : decode w = .lda (modeOf (ibitOf w)) (addrOf w) := by
  simp [decode, h]

theorem decode_sta {w : Word} (h : opcodeOf w = 3) : decode w = .sta (modeOf (ibitOf w)) (addrOf w) := by
  simp [decode, h]

theorem decode_bun {w : Word} (h : opcodeOf w = 4) : decode w = .bun (modeOf (ibitOf w)) (addrOf w) := by
  simp [decode, h]

theorem decode_bsa {w : Word} (h : opcodeOf w = 5) : decode w = .bsa (modeOf (ibitOf w)) (addrOf w) := by
  simp [decode, h]

theorem decode_isz {w : Word} (h : opcodeOf w = 6) : decode w = .isz (modeOf (ibitOf w)) (addrOf w) := by
  simp [decode, h]

theorem decode_regRef {w : Word} (h : opcodeOf w = 7) (hi : ibitOf w = 0) : decode w = decodeRegRef (addrOf w) := by
  simp [decode, h, hi]

theorem decode_inOut {w : Word} (h : opcodeOf w = 7) (hi : ibitOf w = 1) : decode w = decodeInOut (addrOf w) := by
  simp [decode, h, hi]

theorem of_ite {α : Type} {P : α → Prop} {c : Prop} [Decidable c] {x y : α} (hx : P x) (hy : P y) :
    P (if c then x else y) := by
  split <;> assumption

/-- A property of every register-reference instruction holds of every decoded select field. -/
theorem decodeRegRef_all {P : Instr → Prop} (cla : ∀ low, P (.cla low)) (cle : ∀ low, P (.cle low)) (cma : ∀ low, P (.cma low)) (cme : ∀ low, P (.cme low)) (cir : ∀ low, P (.cir low)) (cil : ∀ low, P (.cil low)) (inc : ∀ low, P (.inc low)) (spa : ∀ low, P (.spa low)) (sna : ∀ low, P (.sna low)) (sza : ∀ low, P (.sza low)) (sze : ∀ low, P (.sze low))
    (hlt : P .hlt) (rriNone : P .rriNone) (sel : SelField) : P (decodeRegRef sel) := by
  exact of_ite (cla _) <| of_ite (cle _) <| of_ite (cma _) <| of_ite (cme _) <| of_ite (cir _) <| of_ite (cil _) <| of_ite (inc _) <| of_ite (spa _) <| of_ite (sna _) <| of_ite (sza _) <| of_ite (sze _) <| of_ite hlt rriNone

/-- A property of every input-output instruction holds of every decoded select field. -/
theorem decodeInOut_all {P : Instr → Prop} (inp : ∀ low, P (.inp low)) (out : ∀ low, P (.out low)) (ski : ∀ low, P (.ski low)) (sko : ∀ low, P (.sko low)) (ion : ∀ low, P (.ion low)) (iof : ∀ low, P (.iof low)) (ioNone : ∀ low, P (.ioNone low))
    (sel : SelField) : P (decodeInOut sel) := by
  exact of_ite (inp _) <| of_ite (out _) <| of_ite (ski _) <| of_ite (sko _) <| of_ite (ion _) <| of_ite (iof _) <| ioNone _

/-- The opcode field has eight values. -/
theorem opcode_cases (d : Bits3) : d = 0 ∨ d = 1 ∨ d = 2 ∨ d = 3 ∨ d = 4 ∨ d = 5 ∨ d = 6 ∨ d = 7 := by
  revert d; decide

end Sys2Proof
end

