-- ==== Sys2Proof/Laws/Memory.lean ====
section
/-! SUPPORT. The laws of the memory: what a read after a write gives, and that every operation keeps the canonical form. -/

namespace Sys2Proof.Machine

@[simp] theorem Memory.read_nil (a : Nat) : Memory.read [] a = none := rfl

theorem Memory.read_cons (k : Nat) (v : Word) (m : Memory) (a : Nat) :
    Memory.read ((k, v) :: m) a = if k = a then some v else Memory.read m a := rfl

/-- A read after a write (20_memory.md R62, R63): the word at its address, every other cell as before. -/
theorem Memory.read_write (m : Memory) (a : Nat) (v : Word) (b : Nat) :
    (Memory.write m a v).read b = if b = a then some v else m.read b := by
  induction m with
  | nil => simp only [Memory.write, Memory.read]; split <;> split <;> simp_all
  | cons c m ih =>
    obtain ⟨k, u⟩ := c
    simp only [Memory.write]
    split
    · simp only [Memory.read]; grind
    · split
      · simp only [Memory.read]; grind
      · simp only [Memory.read, ih]; grind

@[simp] theorem Memory.read_write_same (m : Memory) (a : Nat) (v : Word) : (Memory.write m a v).read a = some v := by
  simp [Memory.read_write]

theorem Memory.read_write_other (m : Memory) (v : Word) {a b : Nat} (h : b ≠ a) :
    (Memory.write m a v).read b = m.read b := by simp [Memory.read_write, h]

/-- Whatever a written memory lists was listed before or is the written cell. -/
theorem Memory.mem_write {m : Memory} {a : Nat} {v : Word} {c : Cell} (h : c ∈ Memory.write m a v) :
    c = (a, v) ∨ c ∈ m := by
  induction m with
  | nil => simpa [Memory.write] using h
  | cons d m ih =>
    obtain ⟨k, u⟩ := d
    simp only [Memory.write] at h
    split at h
    · simpa using h
    · split at h
      · rcases List.mem_cons.1 h with h | h
        · exact .inl h
        · exact .inr (List.mem_cons_of_mem _ h)
      · rcases List.mem_cons.1 h with h | h
        · exact .inr (h ▸ List.mem_cons_self)
        · exact (ih h).imp_right (List.mem_cons_of_mem _)

theorem Memory.wf_nil : Memory.wf [] := by simp [Memory.wf]

/-- A write inside the capacity keeps the canonical form. -/
theorem Memory.wf_write {m : Memory} (hm : m.wf) {a : Nat} (ha : a < Config.memWords) (v : Word) :
    (Memory.write m a v).wf := by
  obtain ⟨hp, hb⟩ := hm
  refine ⟨?_, fun c hc => ?_⟩
  · induction m with
    | nil => simp [Memory.write]
    | cons d m ih =>
      obtain ⟨k, u⟩ := d
      have hk := List.pairwise_cons.1 hp
      simp only [Memory.write]
      split
      next hlt =>
        refine List.pairwise_cons.2 ⟨fun c hc => ?_, hp⟩
        rcases List.mem_cons.1 hc with rfl | hc
        · exact hlt
        · exact Nat.lt_trans hlt (hk.1 c hc)
      next hlt =>
        split
        next heq =>
          subst heq
          exact List.pairwise_cons.2 ⟨fun c hc => hk.1 c hc, hk.2⟩
        next hne =>
          refine List.pairwise_cons.2 ⟨fun c hc => ?_, ih hk.2 fun c hc => hb c (List.mem_cons_of_mem _ hc)⟩
          rcases Memory.mem_write hc with rfl | hc
          · exact Nat.lt_of_le_of_ne (Nat.le_of_not_lt hlt) (Ne.symm hne)
          · exact hk.1 c hc
  · rcases Memory.mem_write hc with rfl | hc
    · exact ha
    · exact hb c hc

/-- A 12-bit address lies inside the capacity (20_memory.md R65). -/
theorem addr_lt_memWords (a : Addr) : a.toNat < Config.memWords := a.isLt

/-- A store of the control unit keeps the canonical form. -/
theorem memWrite_wf {m : Memory} (hm : m.wf) (a : Addr) (v : Word) : (memWrite m a v).wf :=
  Memory.wf_write hm (addr_lt_memWords a) v

theorem read_memWrite (m : Memory) (a : Addr) (v : Word) (b : Nat) :
    (memWrite m a v).read b = if b = a.toNat then some v else m.read b := Memory.read_write m a.toNat v b

/-- An address in canonical memory is read at its own entry. -/
theorem Memory.read_of_mem {m : Memory} (hm : m.wf) {c : Cell} (hc : c ∈ m) : m.read c.1 = some c.2 := by
  obtain ⟨hp, -⟩ := hm
  induction m with
  | nil => simp at hc
  | cons d m ih =>
    obtain ⟨k, u⟩ := d
    have hk := List.pairwise_cons.1 hp
    rcases List.mem_cons.1 hc with rfl | hc
    · simp [Memory.read]
    · have := hk.1 c hc
      simp only [Memory.read]
      rw [if_neg (Nat.ne_of_lt this)]
      exact ih hc hk.2

/-- Applying writes inside the capacity keeps the canonical form. -/
theorem applyWrites_wf {ws : List Cell} (hws : ∀ c ∈ ws, c.1 < Config.memWords) {m : Memory} (hm : m.wf) :
    (Assembler.applyWrites ws m).wf := by
  induction ws generalizing m with
  | nil => exact hm
  | cons c ws ih =>
    obtain ⟨a, w⟩ := c
    exact ih (fun d hd => hws d (List.mem_cons_of_mem _ hd)) (Memory.wf_write hm (hws (a, w) List.mem_cons_self) w)

/-- A read by the control unit under the default policy. -/
theorem memRead_fault_some {m : Memory} {a : Addr} {v : Word} (h : m.read a.toNat = some v) (u : Config.UnsetPolicy) :
    memRead u m a = .ok v := by simp [memRead, h]

theorem memRead_fault_none {m : Memory} {a : Addr} (h : m.read a.toNat = none) :
    memRead .fault m a = .error (.uninitializedRead a) := by simp [memRead, h]

theorem memRead_zero_none {m : Memory} {a : Addr} (h : m.read a.toNat = none) : memRead .zero m a = .ok 0 := by
  simp [memRead, h]

end Sys2Proof.Machine
end

