-- ==== Sys2Proof/Laws/Registers.lean ====
section
/-! SUPPORT. The register primitives and the skip conditions in the library's own terms. -/

namespace Sys2Proof.Machine

theorem Reg.increment_eq_add_one {b : Nat} (w : BitVec b) : Reg.increment w = w + 1 := by
  apply BitVec.eq_of_toNat_eq
  simp [Reg.increment]

theorem Reg.clear_eq_zero {b : Nat} (w : BitVec b) : Reg.clear w = 0 := rfl

theorem Reg.logicAnd_eq_and {b : Nat} (w x : BitVec b) : Reg.logicAnd w x = w &&& x := rfl

theorem Reg.complement_eq_not {b : Nat} (w : BitVec b) : Reg.complement w = ~~~w := rfl

theorem Reg.transfer_eq_ofNat (b v : Nat) : Reg.transfer b v = BitVec.ofNat b v := rfl

theorem Reg.add_word {b : Nat} (w x : BitVec b) : (Reg.add w x).1 = w + x := by
  apply BitVec.eq_of_toNat_eq
  simp [Reg.add]

theorem Reg.add_carry {b : Nat} (w x : BitVec b) :
    (Reg.add w x).2 = if 2 ^ b ≤ w.toNat + x.toNat then 1 else 0 := rfl

theorem Reg.shiftRight_out {b : Nat} (w : BitVec b) (c : Bit) : (Reg.shiftRight w c).2 = w.setWidth 1 := rfl

theorem Reg.shiftLeft_out {b : Nat} (w : BitVec b) (c : Bit) : (Reg.shiftLeft w c).2 = BitVec.ofBool w.msb := rfl

theorem Reg.shiftRight_bit {b : Nat} (w : BitVec b) (c : Bit) (i : Nat) :
    (Reg.shiftRight w c).1.getLsbD i
      = (decide (i < b) && if i + 1 < b then w.getLsbD (i + 1) else c.getLsbD (i + 1 - b)) := by
  simp [Reg.shiftRight, BitVec.getLsbD_append, Nat.add_comm 1 i]

theorem Reg.shiftLeft_bit {b : Nat} (w : BitVec b) (c : Bit) (i : Nat) :
    (Reg.shiftLeft w c).1.getLsbD i
      = (decide (i < b) && if i = 0 then c.getLsbD 0 else w.getLsbD (i - 1)) := by
  simp only [Reg.shiftLeft, BitVec.getLsbD_setWidth, BitVec.getLsbD_append]
  rcases i with _ | i
  · simp
  · simp

theorem carryOfAdd_eq (ac dr : Word) :
    carryOfAdd ac dr = if 65536 ≤ ac.toNat + dr.toNat then 1 else 0 := rfl

/-- A one-bit register is 0 or 1. -/
theorem bit_cases (b : Bit) : b = 0 ∨ b = 1 := by
  revert b; decide

theorem bit_ne_zero_iff (b : Bit) : b ≠ 0 ↔ b = 1 := by
  revert b; decide

theorem isPositive_iff (ac : Word) : isPositive ac = true ↔ ac.toNat < 32768 := by
  have h : ac.toNat < 65536 := ac.isLt
  simp [isPositive, BitVec.toNat_eq, BitVec.extractLsb'_toNat, Nat.shiftRight_eq_div_pow]
  omega

theorem isNegative_iff (ac : Word) : isNegative ac = true ↔ 32768 ≤ ac.toNat := by
  have h : ac.toNat < 65536 := ac.isLt
  simp [isNegative, BitVec.toNat_eq, BitVec.extractLsb'_toNat, Nat.shiftRight_eq_div_pow]
  omega

theorem isZeroWord_iff (w : Word) : isZeroWord w = true ↔ w = 0 := by simp [isZeroWord]

theorem isZeroBit_iff (e : Bit) : isZeroBit e = true ↔ e = 0 := by simp [isZeroBit]

end Sys2Proof.Machine
end

