-- ==== Sys2Proof/Laws/State.lean ====
section
/-! SUPPORT. One lemma per field of State for each shared update, all true by unfolding once, so that no later proof unfolds
a record update. -/

namespace Sys2Proof.Machine

/-! ### `SC <- SC + 1` -/

@[simp] theorem State.advanceT_ar (s : State) : (s.advanceT).ar = s.ar := rfl
@[simp] theorem State.advanceT_pc (s : State) : (s.advanceT).pc = s.pc := rfl
@[simp] theorem State.advanceT_dr (s : State) : (s.advanceT).dr = s.dr := rfl
@[simp] theorem State.advanceT_ac (s : State) : (s.advanceT).ac = s.ac := rfl
@[simp] theorem State.advanceT_ir (s : State) : (s.advanceT).ir = s.ir := rfl
@[simp] theorem State.advanceT_sc (s : State) : (s.advanceT).sc = Reg.increment s.sc := rfl
@[simp] theorem State.advanceT_indFlag (s : State) : (s.advanceT).indFlag = s.indFlag := rfl
@[simp] theorem State.advanceT_e (s : State) : (s.advanceT).e = s.e := rfl
@[simp] theorem State.advanceT_runFlag (s : State) : (s.advanceT).runFlag = s.runFlag := rfl
@[simp] theorem State.advanceT_fault (s : State) : (s.advanceT).fault = s.fault := rfl
@[simp] theorem State.advanceT_mem (s : State) : (s.advanceT).mem = s.mem := rfl
@[simp] theorem State.advanceT_launched (s : State) : (s.advanceT).launched = s.launched := rfl

/-! ### `SC <- 0` -/

@[simp] theorem State.retire_ar (s : State) : (s.retire).ar = s.ar := rfl
@[simp] theorem State.retire_pc (s : State) : (s.retire).pc = s.pc := rfl
@[simp] theorem State.retire_dr (s : State) : (s.retire).dr = s.dr := rfl
@[simp] theorem State.retire_ac (s : State) : (s.retire).ac = s.ac := rfl
@[simp] theorem State.retire_ir (s : State) : (s.retire).ir = s.ir := rfl
@[simp] theorem State.retire_sc (s : State) : (s.retire).sc = 0 := rfl
@[simp] theorem State.retire_indFlag (s : State) : (s.retire).indFlag = s.indFlag := rfl
@[simp] theorem State.retire_e (s : State) : (s.retire).e = s.e := rfl
@[simp] theorem State.retire_runFlag (s : State) : (s.retire).runFlag = s.runFlag := rfl
@[simp] theorem State.retire_fault (s : State) : (s.retire).fault = s.fault := rfl
@[simp] theorem State.retire_mem (s : State) : (s.retire).mem = s.mem := rfl
@[simp] theorem State.retire_launched (s : State) : (s.retire).launched = s.launched := rfl

/-! ### The skip -/

@[simp] theorem State.skipIf_ar (s : State) (c : Bool) : (s.skipIf c).ar = s.ar := rfl
@[simp] theorem State.skipIf_pc (s : State) (c : Bool) : (s.skipIf c).pc = if c then Reg.increment s.pc else s.pc := rfl
@[simp] theorem State.skipIf_dr (s : State) (c : Bool) : (s.skipIf c).dr = s.dr := rfl
@[simp] theorem State.skipIf_ac (s : State) (c : Bool) : (s.skipIf c).ac = s.ac := rfl
@[simp] theorem State.skipIf_ir (s : State) (c : Bool) : (s.skipIf c).ir = s.ir := rfl
@[simp] theorem State.skipIf_sc (s : State) (c : Bool) : (s.skipIf c).sc = s.sc := rfl
@[simp] theorem State.skipIf_indFlag (s : State) (c : Bool) : (s.skipIf c).indFlag = s.indFlag := rfl
@[simp] theorem State.skipIf_e (s : State) (c : Bool) : (s.skipIf c).e = s.e := rfl
@[simp] theorem State.skipIf_runFlag (s : State) (c : Bool) : (s.skipIf c).runFlag = s.runFlag := rfl
@[simp] theorem State.skipIf_fault (s : State) (c : Bool) : (s.skipIf c).fault = s.fault := rfl
@[simp] theorem State.skipIf_mem (s : State) (c : Bool) : (s.skipIf c).mem = s.mem := rfl
@[simp] theorem State.skipIf_launched (s : State) (c : Bool) : (s.skipIf c).launched = s.launched := rfl

/-! ### The store at AR -/

@[simp] theorem State.store_ar (s : State) (v : Word) : (s.store v).ar = s.ar := rfl
@[simp] theorem State.store_pc (s : State) (v : Word) : (s.store v).pc = s.pc := rfl
@[simp] theorem State.store_dr (s : State) (v : Word) : (s.store v).dr = s.dr := rfl
@[simp] theorem State.store_ac (s : State) (v : Word) : (s.store v).ac = s.ac := rfl
@[simp] theorem State.store_ir (s : State) (v : Word) : (s.store v).ir = s.ir := rfl
@[simp] theorem State.store_sc (s : State) (v : Word) : (s.store v).sc = s.sc := rfl
@[simp] theorem State.store_indFlag (s : State) (v : Word) : (s.store v).indFlag = s.indFlag := rfl
@[simp] theorem State.store_e (s : State) (v : Word) : (s.store v).e = s.e := rfl
@[simp] theorem State.store_runFlag (s : State) (v : Word) : (s.store v).runFlag = s.runFlag := rfl
@[simp] theorem State.store_fault (s : State) (v : Word) : (s.store v).fault = s.fault := rfl
@[simp] theorem State.store_mem (s : State) (v : Word) : (s.store v).mem = memWrite s.mem s.ar v := rfl
@[simp] theorem State.store_launched (s : State) (v : Word) : (s.store v).launched = s.launched := rfl

/-! ### The fault record -/

@[simp] theorem State.recordFault_ar (s : State) (f : Fault) : (s.recordFault f).ar = s.ar := rfl
@[simp] theorem State.recordFault_pc (s : State) (f : Fault) : (s.recordFault f).pc = s.pc := rfl
@[simp] theorem State.recordFault_dr (s : State) (f : Fault) : (s.recordFault f).dr = s.dr := rfl
@[simp] theorem State.recordFault_ac (s : State) (f : Fault) : (s.recordFault f).ac = s.ac := rfl
@[simp] theorem State.recordFault_ir (s : State) (f : Fault) : (s.recordFault f).ir = s.ir := rfl
@[simp] theorem State.recordFault_sc (s : State) (f : Fault) : (s.recordFault f).sc = s.sc := rfl
@[simp] theorem State.recordFault_indFlag (s : State) (f : Fault) : (s.recordFault f).indFlag = s.indFlag := rfl
@[simp] theorem State.recordFault_e (s : State) (f : Fault) : (s.recordFault f).e = s.e := rfl
@[simp] theorem State.recordFault_runFlag (s : State) (f : Fault) : (s.recordFault f).runFlag = s.runFlag := rfl
@[simp] theorem State.recordFault_fault (s : State) (f : Fault) : (s.recordFault f).fault = (s.fault <|> some f) := rfl
@[simp] theorem State.recordFault_mem (s : State) (f : Fault) : (s.recordFault f).mem = s.mem := rfl
@[simp] theorem State.recordFault_launched (s : State) (f : Fault) : (s.recordFault f).launched = s.launched := rfl

/-! ### The host's placing of a word -/

@[simp] theorem State.withFetchWord_ar (s : State) (nbits w : Nat) : (s.withFetchWord nbits w).ar = addrOf (BitVec.ofNat 16 w) := rfl
@[simp] theorem State.withFetchWord_pc (s : State) (nbits w : Nat) : (s.withFetchWord nbits w).pc = Reg.increment s.pc := rfl
@[simp] theorem State.withFetchWord_dr (s : State) (nbits w : Nat) : (s.withFetchWord nbits w).dr = s.dr := rfl
@[simp] theorem State.withFetchWord_ac (s : State) (nbits w : Nat) : (s.withFetchWord nbits w).ac = s.ac := rfl
@[simp] theorem State.withFetchWord_ir (s : State) (nbits w : Nat) : (s.withFetchWord nbits w).ir = BitVec.ofNat 16 w := rfl
@[simp] theorem State.withFetchWord_sc (s : State) (nbits w : Nat) : (s.withFetchWord nbits w).sc = 3 := rfl
@[simp] theorem State.withFetchWord_indFlag (s : State) (nbits w : Nat) : (s.withFetchWord nbits w).indFlag = ibitOf (BitVec.ofNat 16 w) := rfl
@[simp] theorem State.withFetchWord_e (s : State) (nbits w : Nat) : (s.withFetchWord nbits w).e = s.e := rfl
@[simp] theorem State.withFetchWord_runFlag (s : State) (nbits w : Nat) : (s.withFetchWord nbits w).runFlag = 1 := rfl
@[simp] theorem State.withFetchWord_fault (s : State) (nbits w : Nat) : (s.withFetchWord nbits w).fault = none := rfl
@[simp] theorem State.withFetchWord_mem (s : State) (nbits w : Nat) : (s.withFetchWord nbits w).mem = memWrite s.mem s.pc (BitVec.ofNat 16 w) := rfl
@[simp] theorem State.withFetchWord_launched (s : State) (nbits w : Nat) : (s.withFetchWord nbits w).launched = true := rfl

end Sys2Proof.Machine
end

