-- ==== Sys2Proof/Laws/Ops.lean ====
section
/-! SUPPORT. One lemma for each shared operation of a micro-step that says once what it can answer. -/

namespace Sys2Proof.Machine

/-- A read of a written cell goes on with its word, whatever the policy. -/
theorem withRead_some {u : Config.UnsetPolicy} {s : State} {k : Word → State} {v : Word}
    (h : s.mem.read s.ar.toNat = some v) : withRead u s k = .next (k v) := by
  simp [withRead, memRead, h]

/-- A read of an unset cell under the policy `fault` faults with the address in AR. -/
theorem withRead_none {s : State} {k : Word → State} (h : s.mem.read s.ar.toNat = none) :
    withRead .fault s k = .fault (.uninitializedRead s.ar) := by
  simp [withRead, memRead, raise, h]

/-- If a read under the policy `fault` goes on, the cell was written and its word was used. -/
theorem withRead_next {s t : State} {k : Word → State} (h : withRead .fault s k = .next t) :
    ∃ v, s.mem.read s.ar.toNat = some v ∧ t = k v := by
  cases hr : s.mem.read s.ar.toNat with
  | none => simp [withRead_none hr] at h
  | some v => exact ⟨v, rfl, by simpa [withRead_some hr] using h.symm⟩

/-- A read never refuses. -/
theorem withRead_ne_refused {u : Config.UnsetPolicy} {s : State} {k : Word → State} (r : Refusal) :
    withRead u s k ≠ .refused r := by
  simp only [withRead, raise]; split <;> simp

/-- A read faults only as UninitializedRead of the address in AR, and only when the cell is unset. -/
theorem withRead_fault {u : Config.UnsetPolicy} {s : State} {k : Word → State} {f : Fault}
    (h : withRead u s k = .fault f) : f = .uninitializedRead s.ar ∧ s.mem.read s.ar.toNat = none ∧ u = .fault := by
  simp only [withRead, raise, memRead] at h
  cases hr : s.mem.read s.ar.toNat <;> cases u <;> simp [hr] at h ⊢
  exact h.symm

/-- The off-schedule answer is never a next state and never a fault. -/
theorem offSchedule_ne_next (s t : State) : offSchedule s ≠ .next t := by
  simp only [offSchedule]; split <;> simp

theorem offSchedule_ne_fault (s : State) (f : Fault) : offSchedule s ≠ .fault f := by
  simp only [offSchedule]; split <;> simp

/-- From T3 on the off-schedule answer is InvalidSequenceState. -/
theorem offSchedule_of_three_le {s : State} (h : 3 ≤ s.sc.toNat) :
    offSchedule s = .refused (.invalidSequenceState s.sc (opcodeOf s.ir)) := by
  have hlt : ¬ s.sc < 3 := fun hlt => by
    have hn : s.sc.toNat < 3 := hlt
    omega
  exact if_neg hlt

/-- What T3 of a memory-reference word goes on to. -/
theorem dereference_next {mode : AddrMode} {s t : State} (h : dereference .fault mode s = .next t) :
    (mode = .direct ∧ t = s.advanceT)
    ∨ (mode = .indirect ∧ ∃ v, s.mem.read s.ar.toNat = some v ∧ t = { s with ar := addrOf v }.advanceT) := by
  cases mode with
  | direct => exact .inl ⟨rfl, by simpa [dereference] using h.symm⟩
  | indirect => exact .inr ⟨rfl, withRead_next h⟩

/-- What the operand read of T4 goes on to. -/
theorem loadOperand_next {s t : State} (h : loadOperand .fault s = .next t) :
    ∃ v, s.mem.read s.ar.toNat = some v ∧ t = { s with dr := v }.advanceT := withRead_next h

/-- What the fetch of T1 goes on to. -/
theorem fetchT1_next {s t : State} (h : fetchT1 .fault s = .next t) :
    ∃ v, s.mem.read s.ar.toNat = some v ∧ t = { s with ir := v, pc := Reg.increment s.pc }.advanceT := withRead_next h

/-- A register-reference micro-step goes on only at T3, with its operation and SC cleared. -/
theorem regRefStep_next {op : State → State} {s t : State} (h : regRefStep op s = .next t) :
    s.sc = 3 ∧ t = (op s).retire := by
  simp only [regRefStep] at h
  split at h
  next h3 => exact ⟨h3, by simpa using h.symm⟩
  next => exact absurd h (offSchedule_ne_next s t)

/-- An input-output micro-step never goes on. -/
theorem inOutStep_ne_next (s t : State) : inOutStep s ≠ .next t := by
  simp only [inOutStep, raise]
  split
  · simp
  · exact offSchedule_ne_next s t

end Sys2Proof.Machine
end

