-- ==== Sys2Proof/Laws/PerInstr.lean ====
section
/-! SUPPORT. Facts about every instruction as syntax, one lemma per constructor: its word matches its own row of the opcode
table (30_encoding.md R104), and its mnemonic is a row's. -/

namespace Sys2Proof.Laws

/-- Masking a word is testing its bits one by one. -/
theorem covers_of_bits {w : Word} {row : OpcodeRow}
    (h : ∀ j, j < 16 → (w.getLsbD j && row.mask.getLsbD j) = row.pattern.getLsbD j) : row.covers w = true := by
  simp only [OpcodeRow.covers, decide_eq_true_eq]
  exact BitVec.eq_of_getLsbD_eq fun j hj => by simpa using h j hj

/-- A memory-reference word matches a row that fixes bits 14..12 to its opcode. -/
theorem covers_memRef (d : Bits3) (mode : AddrMode) (addr : Addr) (name : String) :
    OpcodeRow.covers ⟨name, joinWord 0 d 0, 0x7000⟩ (encodeMemRef d mode addr) = true := by
  refine covers_of_bits fun j hj => ?_
  simp only [encodeMemRef, getLsbD_joinWord]
  have h7 : ∀ n, n < 16 → (0x7000 : Word).getLsbD n = decide (12 ≤ n ∧ n < 15) := by decide
  rw [h7 j hj]
  by_cases h1 : j < 12
  · simp [h1, Nat.not_le.2 h1]
  · by_cases h2 : j < 15
    · simp [h1, h2, Nat.le_of_not_lt h1]
    · simp [h1, h2]

/-- A word with D = 7 matches a row that fixes bit 15, D and the select bits from `k` up, when the row's select mask holds
no bit below `k` and the carried bits lie below `k`. -/
theorem covers_select (i : Bit) (mask low : SelField) (k : Nat) (row : OpcodeRow)
    (hlow : SelField.below low k = true)
    (hrow : ∀ j, j < 16 → row.mask.getLsbD j = decide (k ≤ j) ∧ row.pattern.getLsbD j = (joinWord i 7 mask).getLsbD j
      ∧ (j < k → (joinWord i 7 mask).getLsbD j = false)) :
    row.covers (joinWord i 7 (mask ||| low)) = true := by
  refine covers_of_bits fun j hj => ?_
  obtain ⟨hm, hp, hz⟩ := hrow j hj
  rw [hm, hp]
  by_cases hk : k ≤ j
  · simp [getLsbD_joinWord, hk, SelField.getLsbD_of_below hlow hk]
  · have hbit := hz (Nat.lt_of_not_le hk)
    simp only [hk, decide_false, Bool.and_false]
    exact hbit.symm

namespace RowMatch

/-- The word of a well-formed instruction matches a row of the table with the instruction's mnemonic. -/
def Statement (i : Instr) : Prop :=
  i.wellFormed = true → ∃ row ∈ opcodeTable, row.mnemonic = i.mnemonic ∧ row.covers (encode i) = true

/-- The one proof shape: name the row. -/
theorem of_row {i : Instr} (row : OpcodeRow) (hmem : row ∈ opcodeTable) (hname : row.mnemonic = i.mnemonic)
    (h : i.wellFormed = true → row.covers (encode i) = true) : Statement i :=
  fun hw => ⟨row, hmem, hname, h hw⟩

theorem and (mode : AddrMode) (addr : Addr) : Statement (.and mode addr) :=
  of_row ⟨"AND", 0x0000, 0x7000⟩ (by decide) rfl fun _ => covers_memRef 0 mode addr _

theorem add (mode : AddrMode) (addr : Addr) : Statement (.add mode addr) :=
  of_row ⟨"ADD", 0x1000, 0x7000⟩ (by decide) rfl fun _ => covers_memRef 1 mode addr _

theorem lda (mode : AddrMode) (addr : Addr) : Statement (.lda mode addr) :=
  of_row ⟨"LDA", 0x2000, 0x7000⟩ (by decide) rfl fun _ => covers_memRef 2 mode addr _

theorem sta (mode : AddrMode) (addr : Addr) : Statement (.sta mode addr) :=
  of_row ⟨"STA", 0x3000, 0x7000⟩ (by decide) rfl fun _ => covers_memRef 3 mode addr _

theorem bun (mode : AddrMode) (addr : Addr) : Statement (.bun mode addr) :=
  of_row ⟨"BUN", 0x4000, 0x7000⟩ (by decide) rfl fun _ => covers_memRef 4 mode addr _

theorem bsa (mode : AddrMode) (addr : Addr) : Statement (.bsa mode addr) :=
  of_row ⟨"BSA", 0x5000, 0x7000⟩ (by decide) rfl fun _ => covers_memRef 5 mode addr _

theorem isz (mode : AddrMode) (addr : Addr) : Statement (.isz mode addr) :=
  of_row ⟨"ISZ", 0x6000, 0x7000⟩ (by decide) rfl fun _ => covers_memRef 6 mode addr _

theorem cla (low : SelField) : Statement (.cla low) :=
  of_row ⟨"CLA", 0x7800, 0xF800⟩ (by decide) rfl fun hw => covers_select 0 0x800 low 11 _ hw (by decide)

theorem cle (low : SelField) : Statement (.cle low) :=
  of_row ⟨"CLE", 0x7400, 0xFC00⟩ (by decide) rfl fun hw => covers_select 0 0x400 low 10 _ hw (by decide)

theorem cma (low : SelField) : Statement (.cma low) :=
  of_row ⟨"CMA", 0x7200, 0xFE00⟩ (by decide) rfl fun hw => covers_select 0 0x200 low 9 _ hw (by decide)

theorem cme (low : SelField) : Statement (.cme low) :=
  of_row ⟨"CME", 0x7100, 0xFF00⟩ (by decide) rfl fun hw => covers_select 0 0x100 low 8 _ hw (by decide)

theorem cir (low : SelField) : Statement (.cir low) :=
  of_row ⟨"CIR", 0x7080, 0xFF80⟩ (by decide) rfl fun hw => covers_select 0 0x080 low 7 _ hw (by decide)

theorem cil (low : SelField) : Statement (.cil low) :=
  of_row ⟨"CIL", 0x7040, 0xFFC0⟩ (by decide) rfl fun hw => covers_select 0 0x040 low 6 _ hw (by decide)

theorem inc (low : SelField) : Statement (.inc low) :=
  of_row ⟨"INC", 0x7020, 0xFFE0⟩ (by decide) rfl fun hw => covers_select 0 0x020 low 5 _ hw (by decide)

theorem spa (low : SelField) : Statement (.spa low) :=
  of_row ⟨"SPA", 0x7010, 0xFFF0⟩ (by decide) rfl fun hw => covers_select 0 0x010 low 4 _ hw (by decide)

theorem sna (low : SelField) : Statement (.sna low) :=
  of_row ⟨"SNA", 0x7008, 0xFFF8⟩ (by decide) rfl fun hw => covers_select 0 0x008 low 3 _ hw (by decide)

theorem sza (low : SelField) : Statement (.sza low) :=
  of_row ⟨"SZA", 0x7004, 0xFFFC⟩ (by decide) rfl fun hw => covers_select 0 0x004 low 2 _ hw (by decide)

theorem sze (low : SelField) : Statement (.sze low) :=
  of_row ⟨"SZE", 0x7002, 0xFFFE⟩ (by decide) rfl fun hw => covers_select 0 0x002 low 1 _ hw (by decide)

theorem inp (low : SelField) : Statement (.inp low) :=
  of_row ⟨"INP", 0xF800, 0xF800⟩ (by decide) rfl fun hw => covers_select 1 0x800 low 11 _ hw (by decide)

theorem out (low : SelField) : Statement (.out low) :=
  of_row ⟨"OUT", 0xF400, 0xFC00⟩ (by decide) rfl fun hw => covers_select 1 0x400 low 10 _ hw (by decide)

theorem ski (low : SelField) : Statement (.ski low) :=
  of_row ⟨"SKI", 0xF200, 0xFE00⟩ (by decide) rfl fun hw => covers_select 1 0x200 low 9 _ hw (by decide)

theorem sko (low : SelField) : Statement (.sko low) :=
  of_row ⟨"SKO", 0xF100, 0xFF00⟩ (by decide) rfl fun hw => covers_select 1 0x100 low 8 _ hw (by decide)

theorem ion (low : SelField) : Statement (.ion low) :=
  of_row ⟨"ION", 0xF080, 0xFF80⟩ (by decide) rfl fun hw => covers_select 1 0x080 low 7 _ hw (by decide)

theorem iof (low : SelField) : Statement (.iof low) :=
  of_row ⟨"IOF", 0xF040, 0xFFC0⟩ (by decide) rfl fun hw => covers_select 1 0x040 low 6 _ hw (by decide)

theorem ioNone (low : SelField) : Statement (.ioNone low) :=
  of_row ⟨"IO_NONE", 0xF000, 0xFFC0⟩ (by decide) rfl fun hw => covers_select 1 0x000 low 6 _ hw (by decide)

theorem hlt : Statement .hlt := of_row ⟨"HLT", 0x7001, 0xFFFF⟩ (by decide) rfl fun _ => by decide

theorem rriNone : Statement .rriNone := of_row ⟨"RRI_NONE", 0x7000, 0xFFFF⟩ (by decide) rfl fun _ => by decide

end RowMatch

namespace FieldsOfWord

/-- The opcode field D of the instruction's class (30_encoding.md R91, R92). -/
def opcode : Instr → Bits3
  | .and _ _ => 0
  | .add _ _ => 1
  | .lda _ _ => 2
  | .sta _ _ => 3
  | .bun _ _ => 4
  | .bsa _ _ => 5
  | .isz _ _ => 6
  | _ => 7

/-- Bit 15 of the instruction's class or mode. -/
def bit15 : Instr → Bit
  | .and mode _ | .add mode _ | .lda mode _ | .sta mode _ | .bun mode _ | .bsa mode _ | .isz mode _ => ibitOfMode mode
  | .inp _ | .out _ | .ski _ | .sko _ | .ion _ | .iof _ | .ioNone _ => 1
  | _ => 0

/-- The opcode field and bit 15 of an instruction's word are those of its class. -/
def Statement (i : Instr) : Prop := opcodeOf (encode i) = opcode i ∧ ibitOf (encode i) = bit15 i

theorem and (mode : AddrMode) (addr : Addr) : Statement (.and mode addr) :=
  ⟨opcodeOf_joinWord _ _ _, ibitOf_joinWord _ _ _⟩

theorem add (mode : AddrMode) (addr : Addr) : Statement (.add mode addr) :=
  ⟨opcodeOf_joinWord _ _ _, ibitOf_joinWord _ _ _⟩

theorem lda (mode : AddrMode) (addr : Addr) : Statement (.lda mode addr) :=
  ⟨opcodeOf_joinWord _ _ _, ibitOf_joinWord _ _ _⟩

theorem sta (mode : AddrMode) (addr : Addr) : Statement (.sta mode addr) :=
  ⟨opcodeOf_joinWord _ _ _, ibitOf_joinWord _ _ _⟩

theorem bun (mode : AddrMode) (addr : Addr) : Statement (.bun mode addr) :=
  ⟨opcodeOf_joinWord _ _ _, ibitOf_joinWord _ _ _⟩

theorem bsa (mode : AddrMode) (addr : Addr) : Statement (.bsa mode addr) :=
  ⟨opcodeOf_joinWord _ _ _, ibitOf_joinWord _ _ _⟩

theorem isz (mode : AddrMode) (addr : Addr) : Statement (.isz mode addr) :=
  ⟨opcodeOf_joinWord _ _ _, ibitOf_joinWord _ _ _⟩

theorem cla (low : SelField) : Statement (.cla low) :=
  ⟨opcodeOf_joinWord _ _ _, ibitOf_joinWord _ _ _⟩

theorem cle (low : SelField) : Statement (.cle low) :=
  ⟨opcodeOf_joinWord _ _ _, ibitOf_joinWord _ _ _⟩

theorem cma (low : SelField) : Statement (.cma low) :=
  ⟨opcodeOf_joinWord _ _ _, ibitOf_joinWord _ _ _⟩

theorem cme (low : SelField) : Statement (.cme low) :=
  ⟨opcodeOf_joinWord _ _ _, ibitOf_joinWord _ _ _⟩

theorem cir (low : SelField) : Statement (.cir low) :=
  ⟨opcodeOf_joinWord _ _ _, ibitOf_joinWord _ _ _⟩

theorem cil (low : SelField) : Statement (.cil low) :=
  ⟨opcodeOf_joinWord _ _ _, ibitOf_joinWord _ _ _⟩

theorem inc (low : SelField) : Statement (.inc low) :=
  ⟨opcodeOf_joinWord _ _ _, ibitOf_joinWord _ _ _⟩

theorem spa (low : SelField) : Statement (.spa low) :=
  ⟨opcodeOf_joinWord _ _ _, ibitOf_joinWord _ _ _⟩

theorem sna (low : SelField) : Statement (.sna low) :=
  ⟨opcodeOf_joinWord _ _ _, ibitOf_joinWord _ _ _⟩

theorem sza (low : SelField) : Statement (.sza low) :=
  ⟨opcodeOf_joinWord _ _ _, ibitOf_joinWord _ _ _⟩

theorem sze (low : SelField) : Statement (.sze low) :=
  ⟨opcodeOf_joinWord _ _ _, ibitOf_joinWord _ _ _⟩

theorem inp (low : SelField) : Statement (.inp low) :=
  ⟨opcodeOf_joinWord _ _ _, ibitOf_joinWord _ _ _⟩

theorem out (low : SelField) : Statement (.out low) :=
  ⟨opcodeOf_joinWord _ _ _, ibitOf_joinWord _ _ _⟩

theorem ski (low : SelField) : Statement (.ski low) :=
  ⟨opcodeOf_joinWord _ _ _, ibitOf_joinWord _ _ _⟩

theorem sko (low : SelField) : Statement (.sko low) :=
  ⟨opcodeOf_joinWord _ _ _, ibitOf_joinWord _ _ _⟩

theorem ion (low : SelField) : Statement (.ion low) :=
  ⟨opcodeOf_joinWord _ _ _, ibitOf_joinWord _ _ _⟩

theorem iof (low : SelField) : Statement (.iof low) :=
  ⟨opcodeOf_joinWord _ _ _, ibitOf_joinWord _ _ _⟩

theorem ioNone (low : SelField) : Statement (.ioNone low) :=
  ⟨opcodeOf_joinWord _ _ _, ibitOf_joinWord _ _ _⟩

theorem hlt : Statement .hlt :=
  ⟨opcodeOf_joinWord _ _ _, ibitOf_joinWord _ _ _⟩

theorem rriNone : Statement .rriNone :=
  ⟨opcodeOf_joinWord _ _ _, ibitOf_joinWord _ _ _⟩

end FieldsOfWord

end Sys2Proof.Laws
end

