-- ==== Sys2Proof/Laws/Step.lean ====
section
/-! SUPPORT. What a micro-step can do, said once: the guard, the common micro-steps, and for each memory-reference instruction
the micro-steps it goes on to. -/

namespace Sys2Proof.Machine

/-- A machine that is running makes the micro-step its SC selects. -/
theorem step_of_running {s : State} (h : Running s) :
    step s = if s.sc = 0 then fetchT0 s else if s.sc = 1 then fetchT1 .fault s else if s.sc = 2 then fetchT2 s
      else exec (decode s.ir) s := by
  simp [step, h.1, h.2, Config.unsetPolicy]

/-- Only a running machine goes on or faults. -/
theorem running_of_step_next {s t : State} (h : step s = .next t) : Running s := by
  simp only [step] at h
  split at h
  · simp at h
  · split at h
    · simp at h
    next hf hr => exact ⟨(bit_ne_zero_iff _).1 hr, by simpa using hf⟩

theorem running_of_step_fault {s : State} {f : Fault} (h : step s = .fault f) : Running s := by
  simp only [step] at h
  split at h
  · simp at h
  · split at h
    · simp at h
    next hf hr => exact ⟨(bit_ne_zero_iff _).1 hr, by simpa using hf⟩

/-- What a micro-step that goes on has done. -/
theorem step_next {s t : State} (h : step s = .next t) :
    (s.sc = 0 ∧ t = { s with ar := s.pc }.advanceT)
    ∨ (s.sc = 1 ∧ ∃ v, s.mem.read s.ar.toNat = some v
        ∧ t = { s with ir := v, pc := Reg.increment s.pc }.advanceT)
    ∨ (s.sc = 2 ∧ t = { s with ar := addrOf s.ir, indFlag := ibitOf s.ir }.advanceT)
    ∨ (s.sc ≠ 0 ∧ s.sc ≠ 1 ∧ s.sc ≠ 2 ∧ exec (decode s.ir) s = .next t) := by
  rw [step_of_running (running_of_step_next h)] at h
  split at h
  next h0 => exact .inl ⟨h0, by simpa [fetchT0] using h.symm⟩
  next h0 =>
    split at h
    next h1 => exact .inr (.inl ⟨h1, fetchT1_next h⟩)
    next h1 =>
      split at h
      next h2 => exact .inr (.inr (.inl ⟨h2, by simpa [fetchT2] using h.symm⟩))
      next h2 => exact .inr (.inr (.inr ⟨h0, h1, h2, h⟩))

/-- The micro-steps AND goes on to. -/
theorem execAnd_next {mode : AddrMode} {addr : Addr} {s t : State}
    (h : exec (.and mode addr) s = .next t) :
    (s.sc = 3 ∧ dereference .fault mode s = .next t)
    ∨ (s.sc = 4 ∧ loadOperand .fault s = .next t)
    ∨ (s.sc = 5 ∧ t = andT5 s) := by
  simp only [exec, execAnd, Config.unsetPolicy] at h
  repeat' split at h
  all_goals first
    | exact absurd h (offSchedule_ne_next s t)
    | simp_all

/-- The micro-steps ADD goes on to. -/
theorem execAdd_next {mode : AddrMode} {addr : Addr} {s t : State}
    (h : exec (.add mode addr) s = .next t) :
    (s.sc = 3 ∧ dereference .fault mode s = .next t)
    ∨ (s.sc = 4 ∧ loadOperand .fault s = .next t)
    ∨ (s.sc = 5 ∧ t = addT5 s) := by
  simp only [exec, execAdd, Config.unsetPolicy] at h
  repeat' split at h
  all_goals first
    | exact absurd h (offSchedule_ne_next s t)
    | simp_all

/-- The micro-steps LDA goes on to. -/
theorem execLda_next {mode : AddrMode} {addr : Addr} {s t : State}
    (h : exec (.lda mode addr) s = .next t) :
    (s.sc = 3 ∧ dereference .fault mode s = .next t)
    ∨ (s.sc = 4 ∧ loadOperand .fault s = .next t)
    ∨ (s.sc = 5 ∧ t = ldaT5 s) := by
  simp only [exec, execLda, Config.unsetPolicy] at h
  repeat' split at h
  all_goals first
    | exact absurd h (offSchedule_ne_next s t)
    | simp_all

/-- The micro-steps STA goes on to. -/
theorem execSta_next {mode : AddrMode} {addr : Addr} {s t : State}
    (h : exec (.sta mode addr) s = .next t) :
    (s.sc = 3 ∧ dereference .fault mode s = .next t)
    ∨ (s.sc = 4 ∧ t = staT4 s) := by
  simp only [exec, execSta, Config.unsetPolicy] at h
  repeat' split at h
  all_goals first
    | exact absurd h (offSchedule_ne_next s t)
    | simp_all

/-- The micro-steps BUN goes on to. -/
theorem execBun_next {mode : AddrMode} {addr : Addr} {s t : State}
    (h : exec (.bun mode addr) s = .next t) :
    (s.sc = 3 ∧ dereference .fault mode s = .next t)
    ∨ (s.sc = 4 ∧ t = bunT4 s) := by
  simp only [exec, execBun, Config.unsetPolicy] at h
  repeat' split at h
  all_goals first
    | exact absurd h (offSchedule_ne_next s t)
    | simp_all

/-- The micro-steps BSA goes on to. -/
theorem execBsa_next {mode : AddrMode} {addr : Addr} {s t : State}
    (h : exec (.bsa mode addr) s = .next t) :
    (s.sc = 3 ∧ dereference .fault mode s = .next t)
    ∨ (s.sc = 4 ∧ t = bsaT4 s)
    ∨ (s.sc = 5 ∧ t = bsaT5 s) := by
  simp only [exec, execBsa, Config.unsetPolicy] at h
  repeat' split at h
  all_goals first
    | exact absurd h (offSchedule_ne_next s t)
    | simp_all

/-- The micro-steps ISZ goes on to. -/
theorem execIsz_next {mode : AddrMode} {addr : Addr} {s t : State}
    (h : exec (.isz mode addr) s = .next t) :
    (s.sc = 3 ∧ dereference .fault mode s = .next t)
    ∨ (s.sc = 4 ∧ loadOperand .fault s = .next t)
    ∨ (s.sc = 5 ∧ t = iszT5 s)
    ∨ (s.sc = 6 ∧ t = iszT6 s) := by
  simp only [exec, execIsz, Config.unsetPolicy] at h
  repeat' split at h
  all_goals first
    | exact absurd h (offSchedule_ne_next s t)
    | simp_all

/-! ### The classes with D = 7 -/

/-- Every input-output word acts as the one micro-step of its group (43_io_group.md R191). -/
theorem exec_decodeInOut (sel : SelField) (s : State) : exec (decodeInOut sel) s = inOutStep s := by
  apply decodeInOut_all (P := fun i => exec i s = inOutStep s)
  all_goals exact fun _ => rfl

/-- Outside T3 a register-reference word is off the schedule, whatever its select field. -/
theorem exec_decodeRegRef_of_ne (sel : SelField) {s : State} (h : s.sc ≠ 3) :
    exec (decodeRegRef sel) s = offSchedule s := by
  have hn : ∀ op, regRefStep op s = offSchedule s := fun op => if_neg h
  apply decodeRegRef_all (P := fun i => exec i s = offSchedule s)
  case hlt => exact hn hltOp
  case rriNone => exact hn rriNoneOp
  all_goals exact fun _ => hn _

/-! ### Several micro-steps -/

theorem runSteps_zero (s : State) : runSteps 0 s = .next s := rfl

theorem runSteps_succ {s t : State} (h : step s = .next t) (n : Nat) : runSteps (n + 1) s = runSteps n t := by
  have hc : core.step s = .next t := h
  simp only [runSteps, Host.Core.run, hc]
  rfl

/-- A run that goes on for `n` micro-steps and then for `m` more is one run of `n + m`. -/
theorem runSteps_add {n : Nat} {s t : State} (h : runSteps n s = .next t) (m : Nat) :
    runSteps (m + n) s = runSteps m t := by
  induction n generalizing s with
  | zero => cases h; rfl
  | succ n ih =>
    cases hs : step s with
    | next u => rw [runSteps_succ hs] at h; rw [← Nat.add_assoc, runSteps_succ hs]; exact ih h
    | fault f =>
      have hc : core.step s = .fault f := hs
      simp [runSteps, Host.Core.run, hc] at h
    | refused r =>
      have hc : core.step s = .refused r := hs
      simp [runSteps, Host.Core.run, hc] at h

end Sys2Proof.Machine
end

