-- ==== Sys2Proof/Tests/Slice0.lean ====
section
/-! SUPPORT. The model's own tests: well-formedness, decoding of words written out from the spec, one micro-step of each
instruction from the spec's examples, the assembler, and a witness for every statement that has hypotheses. -/

open Sys2Proof Sys2Proof.Machine

namespace Sys2Proof.Tests

/-! ### Helpers -/

/-- A running machine at a boundary, its next word at `pc`. -/
def boundary (pc : Addr) (m : Memory) : State :=
  { State.reset with pc := pc, mem := m, runFlag := 1, launched := true }

/-- A running machine at `t` of the word `w`, fetched from 0x010, with AR as T2 leaves it. -/
def during (t : Bits3) (w : Word) (m : Memory) : State :=
  { boundary 0x011 m with sc := t, ir := w, ar := addrOf w, indFlag := ibitOf w }

/-- The next state of an answer. -/
def nextOf (r : Result) : Option State :=
  match r with
  | .next t => some t
  | .fault _ => none
  | .refused _ => none

/-- PC, AC, E, S and SC of the next state: what the tables of 95_test_vectors.md show. -/
def shown (r : Result) : Option (Addr × Word × Bit × Bit × Bits3) :=
  (nextOf r).map (fun t => (t.pc, t.ac, t.e, t.runFlag, t.sc))

/-! ### Well-formedness: a carried bit at the instruction's own select bit is refused -/

theorem test_wf_cla : (Instr.cla 0x800).wellFormed = false ∧ (Instr.cla 0x7FF).wellFormed = true := by
  decide

theorem test_wf_cle : (Instr.cle 0x400).wellFormed = false ∧ (Instr.cle 0x3FF).wellFormed = true := by
  decide

theorem test_wf_cma : (Instr.cma 0x200).wellFormed = false ∧ (Instr.cma 0x1FF).wellFormed = true := by
  decide

theorem test_wf_cme : (Instr.cme 0x100).wellFormed = false ∧ (Instr.cme 0x0FF).wellFormed = true := by
  decide

theorem test_wf_cir : (Instr.cir 0x080).wellFormed = false ∧ (Instr.cir 0x07F).wellFormed = true := by
  decide

theorem test_wf_cil : (Instr.cil 0x040).wellFormed = false ∧ (Instr.cil 0x03F).wellFormed = true := by
  decide

theorem test_wf_inc : (Instr.inc 0x020).wellFormed = false ∧ (Instr.inc 0x01F).wellFormed = true := by
  decide

theorem test_wf_spa : (Instr.spa 0x010).wellFormed = false ∧ (Instr.spa 0x00F).wellFormed = true := by
  decide

theorem test_wf_sna : (Instr.sna 0x008).wellFormed = false ∧ (Instr.sna 0x007).wellFormed = true := by
  decide

theorem test_wf_sza : (Instr.sza 0x004).wellFormed = false ∧ (Instr.sza 0x003).wellFormed = true := by
  decide

theorem test_wf_sze : (Instr.sze 0x002).wellFormed = false ∧ (Instr.sze 0x001).wellFormed = true := by
  decide

theorem test_wf_inp : (Instr.inp 0x800).wellFormed = false ∧ (Instr.inp 0x7FF).wellFormed = true := by
  decide

theorem test_wf_out : (Instr.out 0x400).wellFormed = false ∧ (Instr.out 0x3FF).wellFormed = true := by
  decide

theorem test_wf_ski : (Instr.ski 0x200).wellFormed = false ∧ (Instr.ski 0x1FF).wellFormed = true := by
  decide

theorem test_wf_sko : (Instr.sko 0x100).wellFormed = false ∧ (Instr.sko 0x0FF).wellFormed = true := by
  decide

theorem test_wf_ion : (Instr.ion 0x080).wellFormed = false ∧ (Instr.ion 0x07F).wellFormed = true := by
  decide

theorem test_wf_iof : (Instr.iof 0x040).wellFormed = false ∧ (Instr.iof 0x03F).wellFormed = true := by
  decide

theorem test_wf_ioNone : (Instr.ioNone 0x040).wellFormed = false ∧ (Instr.ioNone 0x03F).wellFormed = true := by
  decide

/-! ### Decoding: words written out from 30_encoding.md R92, R94 to R97 -/

/-- Bit 15, then D = 000, then the address bits. -/
theorem test_decode_and :
    decode 0b0_000_000000100000 = .and .direct 0x020 ∧ decode 0b1_000_111111111111 = .and .indirect 0xFFF := by
  decide

/-- Bit 15, then D = 001, then the address bits. -/
theorem test_decode_add :
    decode 0b0_001_000000100000 = .add .direct 0x020 ∧ decode 0b1_001_111111111111 = .add .indirect 0xFFF := by
  decide

/-- Bit 15, then D = 010, then the address bits. -/
theorem test_decode_lda :
    decode 0b0_010_000000100000 = .lda .direct 0x020 ∧ decode 0b1_010_111111111111 = .lda .indirect 0xFFF := by
  decide

/-- Bit 15, then D = 011, then the address bits. -/
theorem test_decode_sta :
    decode 0b0_011_000000100000 = .sta .direct 0x020 ∧ decode 0b1_011_111111111111 = .sta .indirect 0xFFF := by
  decide

/-- Bit 15, then D = 100, then the address bits. -/
theorem test_decode_bun :
    decode 0b0_100_000000100000 = .bun .direct 0x020 ∧ decode 0b1_100_111111111111 = .bun .indirect 0xFFF := by
  decide

/-- Bit 15, then D = 101, then the address bits. -/
theorem test_decode_bsa :
    decode 0b0_101_000000100000 = .bsa .direct 0x020 ∧ decode 0b1_101_111111111111 = .bsa .indirect 0xFFF := by
  decide

/-- Bit 15, then D = 110, then the address bits. -/
theorem test_decode_isz :
    decode 0b0_110_000000100000 = .isz .direct 0x020 ∧ decode 0b1_110_111111111111 = .isz .indirect 0xFFF := by
  decide

/-- Select bit 11, alone and with every lower bit. -/
theorem test_decode_cla :
    decode 0b0_111_100000000000 = .cla 0 ∧ decode 0b0_111_111111111111 = .cla 0x7FF := by
  decide

/-- Select bit 10, alone and with every lower bit. -/
theorem test_decode_cle :
    decode 0b0_111_010000000000 = .cle 0 ∧ decode 0b0_111_011111111111 = .cle 0x3FF := by
  decide

/-- Select bit 9, alone and with every lower bit. -/
theorem test_decode_cma :
    decode 0b0_111_001000000000 = .cma 0 ∧ decode 0b0_111_001111111111 = .cma 0x1FF := by
  decide

/-- Select bit 8, alone and with every lower bit. -/
theorem test_decode_cme :
    decode 0b0_111_000100000000 = .cme 0 ∧ decode 0b0_111_000111111111 = .cme 0x0FF := by
  decide

/-- Select bit 7, alone and with every lower bit. -/
theorem test_decode_cir :
    decode 0b0_111_000010000000 = .cir 0 ∧ decode 0b0_111_000011111111 = .cir 0x07F := by
  decide

/-- Select bit 6, alone and with every lower bit. -/
theorem test_decode_cil :
    decode 0b0_111_000001000000 = .cil 0 ∧ decode 0b0_111_000001111111 = .cil 0x03F := by
  decide

/-- Select bit 5, alone and with every lower bit. -/
theorem test_decode_inc :
    decode 0b0_111_000000100000 = .inc 0 ∧ decode 0b0_111_000000111111 = .inc 0x01F := by
  decide

/-- Select bit 4, alone and with every lower bit. -/
theorem test_decode_spa :
    decode 0b0_111_000000010000 = .spa 0 ∧ decode 0b0_111_000000011111 = .spa 0x00F := by
  decide

/-- Select bit 3, alone and with every lower bit. -/
theorem test_decode_sna :
    decode 0b0_111_000000001000 = .sna 0 ∧ decode 0b0_111_000000001111 = .sna 0x007 := by
  decide

/-- Select bit 2, alone and with every lower bit. -/
theorem test_decode_sza :
    decode 0b0_111_000000000100 = .sza 0 ∧ decode 0b0_111_000000000111 = .sza 0x003 := by
  decide

/-- Select bit 1, alone and with every lower bit. -/
theorem test_decode_sze :
    decode 0b0_111_000000000010 = .sze 0 ∧ decode 0b0_111_000000000011 = .sze 0x001 := by
  decide

theorem test_decode_hlt : decode 0b0_111_000000000001 = .hlt := by decide

theorem test_decode_rriNone : decode 0b0_111_000000000000 = .rriNone := by decide

/-- Select bit 11 of the input-output group. -/
theorem test_decode_inp :
    decode 0b1_111_100000000000 = .inp 0 ∧ decode 0b1_111_111111111111 = .inp 0x7FF := by
  decide

/-- Select bit 10 of the input-output group. -/
theorem test_decode_out :
    decode 0b1_111_010000000000 = .out 0 ∧ decode 0b1_111_011111111111 = .out 0x3FF := by
  decide

/-- Select bit 9 of the input-output group. -/
theorem test_decode_ski :
    decode 0b1_111_001000000000 = .ski 0 ∧ decode 0b1_111_001111111111 = .ski 0x1FF := by
  decide

/-- Select bit 8 of the input-output group. -/
theorem test_decode_sko :
    decode 0b1_111_000100000000 = .sko 0 ∧ decode 0b1_111_000111111111 = .sko 0x0FF := by
  decide

/-- Select bit 7 of the input-output group. -/
theorem test_decode_ion :
    decode 0b1_111_000010000000 = .ion 0 ∧ decode 0b1_111_000011111111 = .ion 0x07F := by
  decide

/-- Select bit 6 of the input-output group. -/
theorem test_decode_iof :
    decode 0b1_111_000001000000 = .iof 0 ∧ decode 0b1_111_000001111111 = .iof 0x03F := by
  decide

theorem test_decode_ioNone : decode 0b1_111_000000000000 = .ioNone 0 ∧ decode 0b1_111_000000111111 = .ioNone 0x03F := by
  decide

/-- Log 34: one word of at most 16 bits; the bits above `nbits` are 0. -/
theorem test_decodeTableWord :
    decodeTableWord 16 0x7820 = some (.cla 0x020) ∧ decodeTableWord 8 0xFF = some (.and .direct 0x0FF)
    ∧ decodeTableWord 17 0x7820 = none ∧ decodeTableWord 16 0x10000 = none := by
  decide

/-- The encoder's word from the table of R94 and R97, ignored bits kept. -/
theorem test_encode : encode (.cla 0x020) = 0x7820 ∧ encode (.iof 0) = 0xF040 ∧ encode (.bun .indirect 0x016) = 0xC016 := by
  decide

/-! ### One micro-step each, from the examples of the rules -/

/-- R124's example: PC = 0x100 at T0. -/
theorem test_fetchT0 : (nextOf (step (boundary 0x100 []))).map (fun t => (t.ar, t.sc)) = some (0x100, 1) := by decide

/-- R125's corner case: the fetch at 0xFFF wraps PC to 0. -/
theorem test_fetchT1 :
    (nextOf (step { boundary 0xFFF [(0xFFF, 0x7800)] with ar := 0xFFF, sc := 1 })).map (fun t => (t.ir, t.pc, t.sc))
      = some (0x7800, 0x000, 2) := by
  decide

/-- R126's example: IR = 0xA105 gives AR = 0x105, I = 1. -/
theorem test_fetchT2 :
    (nextOf (step { boundary 0x011 [] with ir := 0xA105, sc := 2 })).map (fun t => (t.ar, t.indFlag, t.sc))
      = some (0x105, 1, 3) := by
  decide

/-- R127's examples: the pointer word 0x0200, and the direct form; the pointer's top bits are dropped (R69). -/
theorem test_dereference :
    (nextOf (step (during 3 0xA105 [(0x105, 0x0200)]))).map (fun t => (t.ar, t.sc)) = some (0x200, 4)
    ∧ (nextOf (step (during 3 0xA105 [(0x105, 0xF200)]))).map (fun t => (t.ar, t.sc)) = some (0x200, 4)
    ∧ (nextOf (step (during 3 0x2105 []))).map (fun t => (t.ar, t.sc)) = some (0x105, 4) := by
  decide

/-- R141's example at T5. -/
theorem test_and : shown (step { during 5 0x0020 [] with ac := 0xF0F5, dr := 0x00FF, e := 1 })
    = some (0x011, 0x00F5, 1, 1, 0) := by decide

/-- R142's example at T5: 0x0053 + 0xFFE9 = 0x1003C. -/
theorem test_add : shown (step { during 5 0x1020 [] with ac := 0x0053, dr := 0xFFE9 })
    = some (0x011, 0x003C, 1, 1, 0) := by decide

/-- R142's corner case: 0x7FFF + 1 has no carry, and E is cleared. -/
theorem test_add_clears_carry : shown (step { during 5 0x1020 [] with ac := 0x7FFF, dr := 1, e := 1 })
    = some (0x011, 0x8000, 0, 1, 0) := by decide

/-- R143's example at T4: the operand goes to DR, AC waits. -/
theorem test_lda_operand :
    (nextOf (step (during 4 0x2020 [(0x020, 0xFFE9)]))).map (fun t => (t.dr, t.ac, t.sc)) = some (0xFFE9, 0, 5) := by decide

/-- R143's example at T5. -/
theorem test_lda : shown (step { during 5 0x2020 [] with dr := 0xFFE9, ac := 7, e := 1 })
    = some (0x011, 0xFFE9, 1, 1, 0) := by decide

/-- R144's example: the store makes an unset cell set. -/
theorem test_sta : (nextOf (step { during 4 0x3106 [] with ac := 0x003C })).map (fun t => (t.mem, t.sc))
    = some ([(0x106, 0x003C)], 0) := by decide

/-- R145's example: word 0xC016, the pointer 0x0012 already in AR. -/
theorem test_bun : shown (step { during 4 0xC016 [] with ar := 0x012 }) = some (0x012, 0, 0, 1, 0) := by decide

/-- R146's example at T4, and its corner case: at EA = 0xFFF AR wraps and the write uses the old AR. -/
theorem test_bsa :
    (nextOf (step { during 4 0x5016 [] with pc := 0x012 })).map (fun t => (t.mem, t.ar, t.sc))
      = some ([(0x016, 0x0012)], 0x017, 5)
    ∧ (nextOf (step { during 4 0x5FFF [] with pc := 0x000 })).map (fun t => (t.mem, t.ar, t.sc))
      = some ([(0xFFF, 0x0000)], 0x000, 5) := by
  decide

/-- R146's example at T5. -/
theorem test_bsa_branch : shown (step { during 5 0x5016 [] with ar := 0x017 }) = some (0x017, 0, 0, 1, 0) := by decide

/-- R147: the increment wraps without touching E (R40). -/
theorem test_isz_increment :
    (nextOf (step { during 5 0x6020 [] with dr := 0xFFFF, e := 1 })).map (fun t => (t.dr, t.e, t.sc)) = some (0, 1, 6) := by
  decide

/-- R147's examples at T6: the skip, and no skip with the write all the same. -/
theorem test_isz :
    (nextOf (step (during 6 0x6020 [(0x020, 0xFFFF)]))).map (fun t => (t.mem, t.pc, t.sc))
      = some ([(0x020, 0x0000)], 0x012, 0)
    ∧ (nextOf (step { during 6 0x6020 [(0x020, 0xFFFD)] with dr := 0xFFFE })).map (fun t => (t.mem, t.pc, t.sc))
      = some ([(0x020, 0xFFFE)], 0x011, 0) := by
  decide

/-- R173: 0x7820 is CLA alone; INC does not follow. -/
theorem test_cla : shown (step { during 3 0x7820 [] with ac := 5, e := 1 }) = some (0x011, 0x0000, 1, 1, 0) := by decide

/-- R162. -/
theorem test_cle : shown (step { during 3 0x7400 [] with ac := 5, e := 1 }) = some (0x011, 0x0005, 0, 1, 0) := by decide

/-- R163. -/
theorem test_cma : shown (step { during 3 0x7200 [] with ac := 0x00F0 }) = some (0x011, 0xFF0F, 0, 1, 0) := by decide

/-- R164. -/
theorem test_cme : shown (step { during 3 0x7100 [] with ac := 5, e := 1 }) = some (0x011, 0x0005, 0, 1, 0) := by decide

/-- R165: the old bit 0 goes to E, the old E to bit 15. -/
theorem test_cir : shown (step { during 3 0x7080 [] with ac := 0x0001, e := 0 }) = some (0x011, 0x0000, 1, 1, 0) := by decide

/-- R165 with E set. -/
theorem test_cir_carry_in : shown (step { during 3 0x7080 [] with ac := 0x0002, e := 1 }) = some (0x011, 0x8001, 0, 1, 0) := by decide

/-- R166: the old bit 15 goes to E, the old E to bit 0. -/
theorem test_cil : shown (step { during 3 0x7040 [] with ac := 0x8000, e := 0 }) = some (0x011, 0x0000, 1, 1, 0) := by decide

/-- R166 with E set. -/
theorem test_cil_carry_in : shown (step { during 3 0x7040 [] with ac := 0x4001, e := 1 }) = some (0x011, 0x8003, 0, 1, 0) := by decide

/-- R167: AC wraps, E stays. -/
theorem test_inc : shown (step { during 3 0x7020 [] with ac := 0xFFFF }) = some (0x011, 0x0000, 0, 1, 0) := by decide

/-- R168: zero counts as positive. -/
theorem test_spa : shown (step { during 3 0x7010 [] with ac := 0x0000 }) = some (0x012, 0x0000, 0, 1, 0) := by decide

/-- R168: bit 15 set. -/
theorem test_spa_not_taken : shown (step { during 3 0x7010 [] with ac := 0x8000 }) = some (0x011, 0x8000, 0, 1, 0) := by decide

/-- R169's example. -/
theorem test_sna : shown (step { during 3 0x7008 [] with ac := 0xFF10 }) = some (0x012, 0xFF10, 0, 1, 0) := by decide

/-- R169's example. -/
theorem test_sna_not_taken : shown (step { during 3 0x7008 [] with ac := 0x0005 }) = some (0x011, 0x0005, 0, 1, 0) := by decide

/-- R170's example. -/
theorem test_sza : shown (step { during 3 0x7004 [] with ac := 0x0000, e := 1 }) = some (0x012, 0x0000, 1, 1, 0) := by decide

/-- R170's example. -/
theorem test_sza_not_taken : shown (step { during 3 0x7004 [] with ac := 0x0001 }) = some (0x011, 0x0001, 0, 1, 0) := by decide

/-- R171, R173: 0x7003 is SZE and does not halt. -/
theorem test_sze : shown (step { during 3 0x7003 [] with e := 0 }) = some (0x012, 0x0000, 0, 1, 0) := by decide

/-- R171's example. -/
theorem test_sze_not_taken : shown (step { during 3 0x7002 [] with e := 1 }) = some (0x011, 0x0000, 1, 1, 0) := by decide

/-- R172: S is cleared, PC stays past the HLT. -/
theorem test_hlt : shown (step { during 3 0x7001 [] with ac := 1 }) = some (0x011, 0x0001, 0, 0, 0) := by decide

/-- R174: only SC is written. -/
theorem test_rriNone : shown (step { during 3 0x7000 [] with ac := 1, e := 1 }) = some (0x011, 0x0001, 1, 1, 0) := by decide

/-- R191 and the table of 95_test_vectors.md: the fault of F800 at T3, and the kept state. -/
theorem test_inp :
    step (during 3 0xF800 []) = .fault (.ioNotImplemented 0xF800)
    ∧ hostStep (during 3 0xF800 []) = { during 3 0xF800 [] with fault := some (.ioNotImplemented 0xF800) } :=
  ⟨rfl, by decide⟩

theorem test_out : step (during 3 0xF400 []) = .fault (.ioNotImplemented 0xF400) := rfl

theorem test_ski : step (during 3 0xF200 []) = .fault (.ioNotImplemented 0xF200) := rfl

theorem test_sko : step (during 3 0xF100 []) = .fault (.ioNotImplemented 0xF100) := rfl

theorem test_ion : step (during 3 0xF080 []) = .fault (.ioNotImplemented 0xF080) := rfl

theorem test_iof : step (during 3 0xF040 []) = .fault (.ioNotImplemented 0xF040) := rfl

theorem test_ioNone : step (during 3 0xF03F []) = .fault (.ioNotImplemented 0xF03F) := rfl

/-- R252: program P9's last micro-step, the operand read of the unset cell 0x0FF. -/
theorem test_uninitialized : step { during 4 0xA002 [] with ar := 0x0FF } = .fault (.uninitializedRead 0x0FF) := rfl

/-- R131, R121: a pair off the schedule, a halted machine, a machine with a fault recorded. -/
theorem test_refusals :
    step (during 5 0x3000 []) = .refused (.invalidSequenceState 5 3)
    ∧ step State.reset = .refused .halted
    ∧ step { during 3 0xF800 [] with fault := some (.ioNotImplemented 0xF800) } = .refused .faultRecorded
    ∧ exec (.cla 0) { State.reset with sc := 2 } = .refused (.notAtDispatch 2) :=
  ⟨rfl, rfl, rfl, rfl⟩

/-- The instruction that `withFetchWord` places is the one the very next micro-step runs. -/
theorem test_withFetchWord : shown (step (State.reset.withFetchWord 16 0x7020)) = some (0x001, 0x0001, 0, 1, 0) := by decide

/-! ### Register primitives (95_test_vectors.md S1, S3, S4) -/

theorem test_register_primitives :
    Reg.add (5 : BitVec 3) 6 = (3, 1) ∧ Reg.add (3 : BitVec 3) 2 = (5, 0)
    ∧ Reg.increment (7 : BitVec 3) = 0 ∧ Reg.transfer 12 0xF200 = 0x200 := by
  decide

/-! ### The assembler (95_test_vectors.md S6, S9; 44_assembler.md R219 to R229) -/

/-- S6: the six input-output words at 0x100 to 0x105. -/
theorem test_assemble_io :
    Assembler.assemble "ORG 100\nINP\nOUT\nSKI\nSKO\nION\nIOF\nEND\n"
      = .ok [(0x100, 0xF800), (0x101, 0xF400), (0x102, 0xF200), (0x103, 0xF100), (0x104, 0xF080), (0x105, 0xF040)] 0x100 := by
  decide

/-- R220, R221, R207: a forward reference, the indirect marker, a negative decimal, a comment. -/
theorem test_assemble_labels :
    Assembler.assemble "ORG 10 / start\n\tLDA A I\nA , DEC -23\nB,\tHEX c001\n"
      = .ok [(0x010, 0xA011), (0x011, 0xFFE9), (0x012, 0xC001)] 0x010 := by
  decide

/-- S9, R229: the errors, a duplicate label before an unknown mnemonic above it, and the range error (R226). -/
theorem test_assemble_errors :
    Assembler.assemble "ORG 0\nFOO\nEND" = .error .invalidMnemonic
    ∧ Assembler.assemble "ORG 0\nFOO\nA, CLA\nA, CLA" = .error .duplicateLabel
    ∧ Assembler.assemble "ORG 0\nLDA 105" = .error .undefinedSymbol
    ∧ Assembler.assemble "ORG FFF\nCLA\nHLT" = .error .addressOutOfRange
    ∧ Assembler.assemble "ORG 1000\nORG 0\nHLT" = .ok [(0, 0x7001)] 0x1000 := by
  decide

/-- R236: one text for each refusal. -/
theorem test_assemble_refusals :
    Assembler.assemble "ORG 0\nA B, CLA" = .refused .badLabel
    ∧ Assembler.assemble "ORG 0\nA," = .refused .emptyStatement
    ∧ Assembler.assemble "ORG 0\nLDA" = .refused .missingOperand
    ∧ Assembler.assemble "ORG 0\nCLA 5" = .refused .extraTokens
    ∧ Assembler.assemble "A, ORG 0" = .refused .labelOnDirective
    ∧ Assembler.assemble "ORG 0\nHEX 0x5" = .refused .badLiteral
    ∧ Assembler.assemble "ORG 0\nDEC 32768" = .refused .literalOutOfRange
    ∧ Assembler.assemble "CLA\nORG 0" = .refused .missingOrigin := by
  decide

/-! ### Witnesses: the hypotheses of the statements, met -/

theorem witness_DecodeOfEncode :
    (Instr.cla 0x7FF).wellFormed = true ∧ (Instr.and .indirect 0xFFF).wellFormed = true ∧ (Instr.ioNone 0x03F).wellFormed = true
    ∧ Instr.hlt.wellFormed = true := by
  decide

theorem witness_HighestSelectBit :
    (11 < 12 ∧ (0xFFF : SelField).toNat / 2 ^ 11 = 1) ∧ (0 < 12 ∧ (0x001 : SelField).toNat / 2 ^ 0 = 1) := by decide

theorem witness_IncrementWraps : (7 : BitVec 3).toNat = 2 ^ 3 - 1 := by decide

theorem witness_Shifts : 0 < 1 ∧ (0 < 16 ∧ 14 + 1 < 16 ∧ 0 < 15 ∧ 15 < 16) := by decide

/-- S = 0; a fault recorded. -/
theorem witness_Guard :
    (State.reset.fault = none ∧ State.reset.runFlag = 0)
    ∧ { State.reset with fault := some (.uninitializedRead 0) }.fault ≠ none := by
  decide

/-- T0, T1 with a set cell, T1 with an unset cell, T2. -/
theorem witness_CommonMicroSteps :
    (Running (boundary 0xFFF []) ∧ (boundary 0xFFF []).sc = 0)
    ∧ (Running (during 1 0x0FFF [(0xFFF, 0x7800)]) ∧ (during 1 0x0FFF [(0xFFF, 0x7800)]).sc = 1
        ∧ (during 1 0x0FFF [(0xFFF, 0x7800)]).mem.read (during 1 0x0FFF [(0xFFF, 0x7800)]).ar.toNat = some 0x7800)
    ∧ (Running (during 1 0x0000 []) ∧ (during 1 0x0000 []).sc = 1
        ∧ (during 1 0x0000 []).mem.read (during 1 0x0000 []).ar.toNat = none)
    ∧ (Running (during 2 0xFFFF []) ∧ (during 2 0xFFFF []).sc = 2) := by
  unfold Running; decide

/-- Direct with the highest opcode, indirect with a set pointer, indirect with an unset one. -/
theorem witness_IndirectDereference :
    (Running (during 3 0x6FFF []) ∧ (during 3 0x6FFF []).sc = 3 ∧ (during 3 0x6FFF []).ir.extractLsb' 12 3 ≠ 7
      ∧ (during 3 0x6FFF []).ir.extractLsb' 15 1 = 0)
    ∧ (Running (during 3 0x8000 [(0, 0xFFFF)]) ∧ (during 3 0x8000 [(0, 0xFFFF)]).ir.extractLsb' 12 3 ≠ 7
      ∧ (during 3 0x8000 [(0, 0xFFFF)]).ir.extractLsb' 15 1 = 1
      ∧ (during 3 0x8000 [(0, 0xFFFF)]).mem.read (during 3 0x8000 [(0, 0xFFFF)]).ar.toNat = some 0xFFFF)
    ∧ (Running (during 3 0xE000 []) ∧ (during 3 0xE000 []).ir.extractLsb' 12 3 ≠ 7
      ∧ (during 3 0xE000 []).ir.extractLsb' 15 1 = 1
      ∧ (during 3 0xE000 []).mem.read (during 3 0xE000 []).ar.toNat = none) := by
  unfold Running; decide

theorem witness_StepRuns :
    (Running (during 3 0x7001 []) ∧ 3 ≤ (during 3 0x7001 []).sc.toNat)
    ∧ (Running (during 7 0x7001 []) ∧ 3 ≤ (during 7 0x7001 []).sc.toNat)
    ∧ (AtBoundary (boundary 0xFFF [(0xFFF, 0x7001)])
        ∧ (boundary 0xFFF [(0xFFF, 0x7001)]).mem.read (boundary 0xFFF [(0xFFF, 0x7001)]).pc.toNat = some 0x7001) := by
  unfold AtBoundary Running; decide

/-- A run of HLT alone that ends. -/
def haltAt0 : State := boundary 0 [(0, 0x7001)]

/-- The end of that run. -/
def halted : State := { haltAt0 with sc := 0, runFlag := 0, pc := 1, ar := 1, ir := 0x7001 }

theorem witness_RunsWithoutFault : runUnder .fault 4 haltAt0 = .halted halted := by decide

/-- One state of each clause, and one the statement's other direction meets. -/
theorem witness_InvalidPairs :
    Running (during 4 0x7000 []) ∧ Running (during 5 0x3000 []) ∧ Running (during 5 0x4000 []) ∧ Running (during 6 0x0000 [])
    ∧ Running (during 7 0x6000 []) ∧ Running (during 6 0x6000 []) := by
  unfold Running; decide

/-- EveryStepKeepsTheInvariant, ReachableControlIsNeverRefused: a reachable state inside an instruction, and its next one. -/
theorem witness_EveryStep :
    MachineInv (during 3 0x7001 [(0x010, 0x7001)])
    ∧ step (during 3 0x7001 [(0x010, 0x7001)]) = .next { during 3 0x7001 [(0x010, 0x7001)] with sc := 0, runFlag := 0 } := by
  refine ⟨?_, rfl⟩
  unfold MachineInv ControlReachable IndFlagAgrees AddressAgrees RunAgrees
  decide

/-- The states in which T6 runs meet the invariant too. -/
theorem witness_Inv_at_T6 : MachineInv (during 6 0x6010 [(0x010, 0x6010)]) := by
  unfold MachineInv ControlReachable IndFlagAgrees AddressAgrees RunAgrees
  decide

theorem witness_HostMoves :
    MachineInv State.reset
    ∧ hostWrite State.reset 4095 7 = .ok { State.reset with mem := [(4095, 7)] }
    ∧ load "ORG FFF\nHLT" State.reset = .loaded { State.reset with mem := [(4095, 0x7001)] } 4095
    ∧ startRun 4095 State.reset = .ok { State.reset with pc := 4095, runFlag := 1, launched := true } := by
  refine ⟨?_, rfl, by decide, rfl⟩
  unfold MachineInv ControlReachable IndFlagAgrees AddressAgrees RunAgrees
  decide

/-- T4 with a set operand, T4 with an unset one, T5. -/
theorem witness_LoadAndArithmeticMicroSteps :
    ((during 4 0x0FFF [(0xFFF, 1)]).sc = 4
      ∧ (during 4 0x0FFF [(0xFFF, 1)]).mem.read (during 4 0x0FFF [(0xFFF, 1)]).ar.toNat = some 1)
    ∧ ((during 4 0x1000 []).sc = 4 ∧ (during 4 0x1000 []).mem.read (during 4 0x1000 []).ar.toNat = none)
    ∧ (during 5 0x2000 []).sc = 5 := by
  decide

theorem witness_StoreAndBranchMicroSteps : (during 4 0x3FFF []).sc = 4 := by decide

theorem witness_BranchAndSaveMicroSteps : (during 4 0x5FFF []).sc = 4 ∧ (during 5 0x5FFF []).sc = 5 := by decide

/-- T4 with a set operand and with an unset one, T5, T6 with DR zero and not zero. -/
theorem witness_IncrementAndSkipMicroSteps :
    ((during 4 0x6000 [(0, 0xFFFF)]).sc = 4
      ∧ (during 4 0x6000 [(0, 0xFFFF)]).mem.read (during 4 0x6000 [(0, 0xFFFF)]).ar.toNat = some 0xFFFF)
    ∧ ((during 4 0x6000 []).sc = 4 ∧ (during 4 0x6000 []).mem.read (during 4 0x6000 []).ar.toNat = none)
    ∧ (during 5 0x6000 []).sc = 5
    ∧ ((during 6 0x6000 []).sc = 6 ∧ (during 6 0x6000 []).dr = 0)
    ∧ ({ during 6 0x6000 [] with dr := 1 }.sc = 6 ∧ { during 6 0x6000 [] with dr := 1 }.dr ≠ 0) := by
  decide

/-- The word `w` at 0x010 with a pointer at 0xFFF to the operand at 0x020. -/
def beforeWord (w : Word) : State := boundary 0x010 [(0x010, w), (0x020, 0xFFFF), (0xFFF, 0xF020)]

/-- Both modes have an effective address there, with an operand (the memory-reference instructions below). -/
theorem witness_effectiveAddr :
    effectiveAddr .fault (beforeWord 0).mem .direct 0x020 = .ok 0x020
    ∧ effectiveAddr .fault (beforeWord 0).mem .indirect 0xFFF = .ok 0x020
    ∧ (beforeWord 0).mem.read (0x020 : Addr).toNat = some 0xFFFF :=
  ⟨rfl, rfl, by decide⟩

theorem witness_LoadAndArithmeticInstructions :
    (effectiveAddr .fault (beforeWord 0x0020).mem .direct 0x020 = .ok 0x020
        ∧ AboutToRun (beforeWord 0x0020) (.and .direct 0x020)
        ∧ (beforeWord 0x0020).mem.read (0x020 : Addr).toNat = some 0xFFFF)
    ∧ (effectiveAddr .fault (beforeWord 0x8FFF).mem .indirect 0xFFF = .ok 0x020
        ∧ AboutToRun (beforeWord 0x8FFF) (.and .indirect 0xFFF)
        ∧ (beforeWord 0x8FFF).mem.read (0x020 : Addr).toNat = some 0xFFFF)
    ∧ (effectiveAddr .fault (beforeWord 0x1020).mem .direct 0x020 = .ok 0x020
        ∧ AboutToRun (beforeWord 0x1020) (.add .direct 0x020)
        ∧ (beforeWord 0x1020).mem.read (0x020 : Addr).toNat = some 0xFFFF)
    ∧ (effectiveAddr .fault (beforeWord 0x9FFF).mem .indirect 0xFFF = .ok 0x020
        ∧ AboutToRun (beforeWord 0x9FFF) (.add .indirect 0xFFF)
        ∧ (beforeWord 0x9FFF).mem.read (0x020 : Addr).toNat = some 0xFFFF)
    ∧ (effectiveAddr .fault (beforeWord 0x2020).mem .direct 0x020 = .ok 0x020
        ∧ AboutToRun (beforeWord 0x2020) (.lda .direct 0x020)
        ∧ (beforeWord 0x2020).mem.read (0x020 : Addr).toNat = some 0xFFFF)
    ∧ (effectiveAddr .fault (beforeWord 0xAFFF).mem .indirect 0xFFF = .ok 0x020
        ∧ AboutToRun (beforeWord 0xAFFF) (.lda .indirect 0xFFF)
        ∧ (beforeWord 0xAFFF).mem.read (0x020 : Addr).toNat = some 0xFFFF) := by
  unfold AboutToRun AtBoundary Running
  decide

theorem witness_StoreAndBranchInstructions :
    (effectiveAddr .fault (beforeWord 0x3020).mem .direct 0x020 = .ok 0x020
        ∧ AboutToRun (beforeWord 0x3020) (.sta .direct 0x020))
    ∧ (effectiveAddr .fault (beforeWord 0xBFFF).mem .indirect 0xFFF = .ok 0x020
        ∧ AboutToRun (beforeWord 0xBFFF) (.sta .indirect 0xFFF))
    ∧ (effectiveAddr .fault (beforeWord 0x4020).mem .direct 0x020 = .ok 0x020
        ∧ AboutToRun (beforeWord 0x4020) (.bun .direct 0x020))
    ∧ (effectiveAddr .fault (beforeWord 0xCFFF).mem .indirect 0xFFF = .ok 0x020
        ∧ AboutToRun (beforeWord 0xCFFF) (.bun .indirect 0xFFF)) := by
  unfold AboutToRun AtBoundary Running
  decide

theorem witness_BranchAndSaveInstruction :
    (effectiveAddr .fault (beforeWord 0x5020).mem .direct 0x020 = .ok 0x020
        ∧ AboutToRun (beforeWord 0x5020) (.bsa .direct 0x020))
    ∧ (effectiveAddr .fault (beforeWord 0xDFFF).mem .indirect 0xFFF = .ok 0x020
        ∧ AboutToRun (beforeWord 0xDFFF) (.bsa .indirect 0xFFF)) := by
  unfold AboutToRun AtBoundary Running
  decide

theorem witness_IncrementAndSkipInstruction :
    (effectiveAddr .fault (beforeWord 0x6020).mem .direct 0x020 = .ok 0x020
        ∧ AboutToRun (beforeWord 0x6020) (.isz .direct 0x020)
        ∧ (beforeWord 0x6020).mem.read (0x020 : Addr).toNat = some 0xFFFF)
    ∧ (effectiveAddr .fault (beforeWord 0xEFFF).mem .indirect 0xFFF = .ok 0x020
        ∧ AboutToRun (beforeWord 0xEFFF) (.isz .indirect 0xFFF)
        ∧ (beforeWord 0xEFFF).mem.read (0x020 : Addr).toNat = some 0xFFFF) := by
  unfold AboutToRun AtBoundary Running
  decide

/-- A call at 0x011 by the word `w`, a pointer to SUB at 0x020, `BUN SUB I` in the word after SUB = 0x016. -/
def beforeCall (w : Word) : State := boundary 0x011 [(0x011, w), (0x017, 0xC016), (0x020, 0x0016)]

/-- The direct and the indirect call. -/
theorem witness_Subroutine :
    (AboutToRun (beforeCall 0x5016) (.bsa .direct 0x016)
      ∧ effectiveAddr .fault (beforeCall 0x5016).mem .direct 0x016 = .ok 0x016
      ∧ (beforeCall 0x5016).mem.read ((0x016 : Addr) + 1).toNat = some (encode (.bun .indirect 0x016)))
    ∧ (AboutToRun (beforeCall 0xD020) (.bsa .indirect 0x020)
      ∧ effectiveAddr .fault (beforeCall 0xD020).mem .indirect 0x020 = .ok 0x016
      ∧ (beforeCall 0xD020).mem.read ((0x016 : Addr) + 1).toNat = some (encode (.bun .indirect 0x016))) := by
  unfold AboutToRun AtBoundary Running
  decide

/-- STA to the next word, across the top of memory. -/
theorem witness_StoreIsSeen :
    AboutToRun (boundary 0xFFF [(0xFFF, 0x3000)]) (.sta .direct 0x000)
    ∧ effectiveAddr .fault (boundary 0xFFF [(0xFFF, 0x3000)]).mem .direct 0x000
        = .ok ((boundary 0xFFF [(0xFFF, 0x3000)]).pc + 1) := by
  unfold AboutToRun AtBoundary Running
  decide

/-- ClearAndComplementEffects, CirculateEffects, IncrementLeavesCarryAlone, SkipHaltAndEmptySelectEffects: T3, at the
boundary values of AC and E the skips test. -/
theorem witness_RegisterReferenceAtT3 :
    (during 3 0x7010 []).sc = 3
    ∧ ({ during 3 0x7010 [] with ac := 0x7FFF }.sc = 3 ∧ { during 3 0x7010 [] with ac := 0x7FFF }.ac.toNat < 32768)
    ∧ ({ during 3 0x7008 [] with ac := 0x8000, e := 1 }.sc = 3 ∧ 32768 ≤ { during 3 0x7008 [] with ac := 0x8000, e := 1 }.ac.toNat)
    := by
  decide

/-- The word `w` at the top of memory, about to run. -/
def atTop (w : Word) : State := boundary 0xFFF [(0xFFF, w)]

/-- Any well-formed instruction is about to run there. -/
theorem aboutToRun_atTop {i : Instr} (h : i.wellFormed = true) : AboutToRun (atTop (encode i)) i :=
  ⟨⟨⟨rfl, rfl⟩, rfl⟩, h, rfl⟩

theorem witness_RegisterReferenceInstructions :

    AboutToRun (atTop (encode (.cla 0x7FF))) (.cla 0x7FF)
    ∧ AboutToRun (atTop (encode (.cle 0))) (.cle 0)
    ∧ AboutToRun (atTop (encode (.cma 0))) (.cma 0)
    ∧ AboutToRun (atTop (encode (.cme 0))) (.cme 0)
    ∧ AboutToRun (atTop (encode (.cir 0))) (.cir 0)
    ∧ AboutToRun (atTop (encode (.cil 0))) (.cil 0)
    ∧ AboutToRun (atTop (encode (.inc 0))) (.inc 0)
    ∧ AboutToRun (atTop (encode (.spa 0))) (.spa 0)
    ∧ AboutToRun (atTop (encode (.sna 0))) (.sna 0)
    ∧ AboutToRun (atTop (encode (.sza 0))) (.sza 0)
    ∧ AboutToRun (atTop (encode (.sze 1))) (.sze 1)
    ∧ AboutToRun (atTop (encode (.hlt))) (.hlt)
    ∧ AboutToRun (atTop (encode (.rriNone))) (.rriNone) :=
  ⟨aboutToRun_atTop rfl, aboutToRun_atTop rfl, aboutToRun_atTop rfl, aboutToRun_atTop rfl, aboutToRun_atTop rfl, aboutToRun_atTop rfl, aboutToRun_atTop rfl, aboutToRun_atTop rfl, aboutToRun_atTop rfl, aboutToRun_atTop rfl, aboutToRun_atTop rfl, aboutToRun_atTop rfl, aboutToRun_atTop rfl⟩

theorem witness_InputOutputRows :
    (during 3 0xF000 []).sc = 3 ∧ Instr.ioNone 0 ∈ [Instr.inp 0, .out 0, .ski 0, .sko 0, .ion 0, .iof 0, .ioNone 0] := by
  decide

/-- The lowest and the highest word of the group. -/
theorem witness_InputOutputWord :
    (AtBoundary (atTop 0xF000) ∧ (atTop 0xF000).mem.read (atTop 0xF000).pc.toNat = some 0xF000
      ∧ 0xF000 ≤ (0xF000 : Word).toNat)
    ∧ (AtBoundary (atTop 0xFFFF) ∧ (atTop 0xFFFF).mem.read (atTop 0xFFFF).pc.toNat = some 0xFFFF
      ∧ 0xF000 ≤ (0xFFFF : Word).toNat) := by
  unfold AtBoundary Running
  decide

/-- FaultKeepsTheStateForGood, UninitializedReadExactly, IoNotImplementedExactly: each of the three places of an unset read,
and T3 of an input-output word. -/
theorem witness_Faults :
    step (during 1 0x0000 []) = .fault (.uninitializedRead 0)
    ∧ step (during 3 0x8FFF []) = .fault (.uninitializedRead 0xFFF)
    ∧ step (during 4 0x6FFF []) = .fault (.uninitializedRead 0xFFF)
    ∧ step (during 3 0xF040 []) = .fault (.ioNotImplemented 0xF040) :=
  ⟨rfl, rfl, rfl, rfl⟩

/-- A next state from every value of SC, for the statements about any micro-step (ExtensionBitRule, AccumulatorWriters,
InstructionAndDataRegisterRules, ProgramCounterRule, AddressRegisterRule, SequenceCounterRule, OnlyHaltClearsTheRunFlag,
MemoryRule): T0, T1, T2; T3 of a direct, an indirect and a register-reference word. -/
theorem witness_NextStates_T0_to_T3 :
    step (boundary 0xFFF []) = .next { boundary 0xFFF [] with ar := 0xFFF, sc := 1 }
    ∧ step (during 1 0x0011 [(0x011, 5)]) = .next { during 1 0x0011 [(0x011, 5)] with ir := 5, pc := 0x012, sc := 2 }
    ∧ step (during 2 0xA105 []) = .next { during 2 0xA105 [] with ar := 0x105, indFlag := 1, sc := 3 }
    ∧ step (during 3 0x2105 []) = .next { during 3 0x2105 [] with sc := 4 }
    ∧ step (during 3 0xA105 [(0x105, 0xF200)]) = .next { during 3 0xA105 [(0x105, 0xF200)] with ar := 0x200, sc := 4 }
    ∧ step (during 3 0x7100 []) = .next { during 3 0x7100 [] with e := 1, sc := 0 } :=
  ⟨rfl, rfl, rfl, rfl, rfl, rfl⟩

/-- T4 of a load, of STA, of BUN and of BSA; T5 of ADD and of ISZ; T6 of ISZ. -/
theorem witness_NextStates_T4_to_T6 :
    step (during 4 0x2020 [(0x020, 7)]) = .next { during 4 0x2020 [(0x020, 7)] with dr := 7, sc := 5 }
    ∧ step (during 4 0x3020 []) = .next { during 4 0x3020 [(0x020, 0)] with sc := 0 }
    ∧ step (during 4 0x4020 []) = .next { during 4 0x4020 [] with pc := 0x020, sc := 0 }
    ∧ step (during 4 0x5020 []) = .next { during 4 0x5020 [(0x020, 0x011)] with ar := 0x021, sc := 5 }
    ∧ step { during 5 0x1020 [] with ac := 0xFFFF, dr := 1 } = .next { during 5 0x1020 [] with ac := 0, dr := 1, e := 1, sc := 0 }
    ∧ step (during 5 0x6020 []) = .next { during 5 0x6020 [] with dr := 1, sc := 6 }
    ∧ step (during 6 0x6020 []) = .next { during 6 0x6020 [(0x020, 0)] with pc := 0x012, sc := 0 } :=
  ⟨rfl, rfl, rfl, rfl, rfl, rfl, rfl⟩

/-- AccumulatorWriters' second premise: AC changes at T5 of LDA and at T3 of INC. -/
theorem witness_AccumulatorChanges :
    (step { during 5 0x2020 [] with dr := 9 } = .next { during 5 0x2020 [] with dr := 9, ac := 9, sc := 0 }
      ∧ { during 5 0x2020 [] with dr := 9, ac := 9, sc := 0 }.ac ≠ { during 5 0x2020 [] with dr := 9 }.ac)
    ∧ (step (during 3 0x7020 []) = .next { during 3 0x7020 [] with ac := 1, sc := 0 }
      ∧ { during 3 0x7020 [] with ac := 1, sc := 0 }.ac ≠ (during 3 0x7020 []).ac) :=
  ⟨⟨rfl, by decide⟩, rfl, by decide⟩

/-- A run that answers a next state, one that faults, one that is refused. -/
theorem witness_IndirectFlag :
    runSteps 1 (during 3 0x7020 []) = .next { during 3 0x7020 [] with ac := 1, sc := 0 }
    ∧ runSteps 1 (during 3 0xF800 []) = .fault (.ioNotImplemented 0xF800)
    ∧ runSteps 1 State.reset = .refused .halted :=
  ⟨rfl, rfl, rfl⟩

theorem witness_UnobservableResetValues :
    AtBoundary haltAt0 ∧ haltAt0.mem.read haltAt0.pc.toNat = some 0x7001
    ∧ runSteps (Schedule.microStepsOf 0x7001) haltAt0 = .next halted := by
  refine ⟨?_, by decide, rfl⟩
  unfold AtBoundary Running
  decide

theorem witness_InstructionTakesItsMicroSteps :
    AtBoundary haltAt0 ∧ haltAt0.mem.read haltAt0.pc.toNat = some 0x7001 ∧ SafeFor (Schedule.microStepsOf 0x7001) haltAt0
    ∧ (0 < 3 ∧ 3 < Schedule.microStepsOf 0x7001) := by
  refine ⟨?_, by decide, ⟨halted, rfl⟩, by decide⟩
  unfold AtBoundary Running
  decide

/-- Both sides of the condition, at its boundary: entry 4095 accepted, 4096 refused, a second run refused. -/
theorem witness_RunSeeds :
    startRun 4095 State.reset = .ok { State.reset with pc := 4095, runFlag := 1, launched := true }
    ∧ startRun 4096 State.reset = .error (.entryOutOfRange 4096)
    ∧ startRun 0 haltAt0 = .error .runStarted :=
  ⟨rfl, rfl, rfl⟩

theorem witness_RunEnds :
    MachineInv haltAt0 ∧ Running haltAt0 ∧ runFor 4 haltAt0 = .halted halted ∧ haltAt0.sc = 0 := by
  refine ⟨?_, ?_, by decide, rfl⟩
  · unfold MachineInv ControlReachable IndFlagAgrees AddressAgrees RunAgrees
    decide
  · unfold Running
    decide

theorem witness_AssemblerAgrees : 4095 < 4096 := by decide

/-- A program with a label at the last address. -/
theorem witness_LabelsNameEmittedWords :
    Assembler.assembleStmts [.org 0xFFF, .emit (some ['A']) (.reg .hlt)] = .ok [(0xFFF, 0x7001)] 0xFFF := by
  decide

theorem witness_DuplicateLabels :
    (Assembler.firstOrg [.org 0, .emit (some ['A']) .unknown, .emit (some ['A']) .unknown] ≠ none
      ∧ ¬ (labelsOf [.org 0, .emit (some ['A']) .unknown, .emit (some ['A']) .unknown]).Nodup)
    ∧ (Assembler.firstOrg [.org 0, .emit (some ['A']) (.reg .cla)] ≠ none
      ∧ (labelsOf [.org 0, .emit (some ['A']) (.reg .cla)]).Nodup) := by
  decide

theorem witness_LinesAfterEnd : Assembler.parseLine "  END / last".toList = .ok .endOfProgram := by decide

theorem witness_LoadWritesTheImage :
    load "ORG 0\nCLA\nORG 0\nHLT" State.reset = .loaded { State.reset with mem := [(0, 0x7001)] } 0 := by
  decide

end Sys2Proof.Tests
end

/-! PROOFS, family 10_state.md. The rows of the (T, D) table as equations, and the one inversion of `step` that the rules of
the whole machine follow from. -/

namespace Sys2Proof.Machine

/-! ### Registers after a register-reference operation (42_register_reference.md R161 to R174) -/

/-- The operation a register-reference instruction performs at T3; no other instruction has one. -/
def regRefOp : Instr → State → State
  | .cla _ => claOp
  | .cle _ => cleOp
  | .cma _ => cmaOp
  | .cme _ => cmeOp
  | .cir _ => cirOp
  | .cil _ => cilOp
  | .inc _ => incOp
  | .spa _ => spaOp
  | .sna _ => snaOp
  | .sza _ => szaOp
  | .sze _ => szeOp
  | .hlt => hltOp
  | .rriNone => rriNoneOp
  | _ => id

@[simp] theorem regRefOp_ar (i : Instr) (s : State) : (regRefOp i s).ar = s.ar := by cases i <;> rfl
@[simp] theorem regRefOp_dr (i : Instr) (s : State) : (regRefOp i s).dr = s.dr := by cases i <;> rfl
@[simp] theorem regRefOp_ir (i : Instr) (s : State) : (regRefOp i s).ir = s.ir := by cases i <;> rfl
@[simp] theorem regRefOp_indFlag (i : Instr) (s : State) : (regRefOp i s).indFlag = s.indFlag := by cases i <;> rfl
@[simp] theorem regRefOp_fault (i : Instr) (s : State) : (regRefOp i s).fault = s.fault := by cases i <;> rfl
@[simp] theorem regRefOp_mem (i : Instr) (s : State) : (regRefOp i s).mem = s.mem := by cases i <;> rfl
@[simp] theorem regRefOp_launched (i : Instr) (s : State) : (regRefOp i s).launched = s.launched := by cases i <;> rfl

theorem regRefOp_runFlag (i : Instr) (s : State) :
    (regRefOp i s).runFlag = if i = .hlt then 0 else s.runFlag := by
  cases i <;> rfl

/-- AC changes under five operations only (R161, R163, R165, R166, R167). -/
theorem mnemonic_of_regRefOp_ac_ne {i : Instr} {s : State} (h : (regRefOp i s).ac ≠ s.ac) :
    i.mnemonic ∈ ["CLA", "CMA", "CIR", "CIL", "INC"] := by
  cases i
  case cla | cma | cir | cil | inc => simp [Instr.mnemonic]
  all_goals exact absurd rfl h

/-- The bit CIR moves out of AC is bit 0, the bit CIL moves out is bit 15 (R165, R166). -/
theorem shiftRight_out_eq_bit (ac : Word) (c : Bit) : (Reg.shiftRight ac c).2 = ac.extractLsb' 0 1 := by
  rw [Reg.shiftRight_out, BitVec.setWidth_eq_extractLsb' (by decide)]

theorem shiftLeft_out_eq_bit (ac : Word) (c : Bit) : (Reg.shiftLeft ac c).2 = ac.extractLsb' 15 1 := by
  refine BitVec.eq_of_getLsbD_eq fun j hj => ?_
  obtain rfl : j = 0 := by omega
  simp [Reg.shiftLeft_out, BitVec.msb_eq_getLsbD_last]

/-- E after an operation: CLE, CME, CIR and CIL write it (R162, R164 to R166). -/
theorem regRefOp_e (i : Instr) (s : State) :
    (regRefOp i s).e = (if i.mnemonic = "CLE" then 0
      else if i.mnemonic = "CME" then ~~~s.e
      else if i.mnemonic = "CIR" then s.ac.extractLsb' 0 1
      else if i.mnemonic = "CIL" then s.ac.extractLsb' 15 1
      else s.e) := by
  cases i
  case cir => exact shiftRight_out_eq_bit s.ac s.e
  case cil => exact shiftLeft_out_eq_bit s.ac s.e
  all_goals rfl

/-- PC after a skip whose test `c` decides `p` (R288). -/
theorem State.skipIf_pc_of_iff (s : State) {c : Bool} {p : Prop} [Decidable p] (h : c = true ↔ p) :
    (s.skipIf c).pc = if p then s.pc + 1 else s.pc :=
  if_congr h (Reg.increment_eq_add_one s.pc) rfl

/-- PC after an operation: the four skips may pass a word (R168 to R171). -/
theorem regRefOp_pc (i : Instr) (s : State) :
    (regRefOp i s).pc = (if i.mnemonic = "SPA" ∧ s.ac.toNat < 32768 then s.pc + 1
      else if i.mnemonic = "SNA" ∧ 32768 ≤ s.ac.toNat then s.pc + 1
      else if i.mnemonic = "SZA" ∧ s.ac = 0 then s.pc + 1
      else if i.mnemonic = "SZE" ∧ s.e = 0 then s.pc + 1
      else s.pc) := by
  cases i
  case spa => exact (s.skipIf_pc_of_iff (isPositive_iff s.ac)).trans (by simp [Instr.mnemonic])
  case sna => exact (s.skipIf_pc_of_iff (isNegative_iff s.ac)).trans (by simp [Instr.mnemonic])
  case sza => exact (s.skipIf_pc_of_iff (isZeroWord_iff s.ac)).trans (by simp [Instr.mnemonic])
  case sze => exact (s.skipIf_pc_of_iff (isZeroBit_iff s.e)).trans (by simp [Instr.mnemonic])
  all_goals exact (show _ = s.pc from rfl).trans (by simp [Instr.mnemonic])

/-- A register-reference word acts as its operation. -/
theorem exec_decodeRegRef (sel : SelField) (s : State) :
    exec (decodeRegRef sel) s = regRefStep (regRefOp (decodeRegRef sel)) s := by
  apply decodeRegRef_all (P := fun i => exec i s = regRefStep (regRefOp i) s)
  case hlt => rfl
  case rriNone => rfl
  all_goals exact fun _ => rfl

/-- A word with D below 7 is no register-reference word. -/
theorem regRefOp_decode_of_opcode_ne {w : Word} (h : opcodeOf w ≠ 7) : regRefOp (decode w) = id := by
  rcases opcode_cases (opcodeOf w) with hd | hd | hd | hd | hd | hd | hd | hd
  · rw [decode_and hd]; rfl
  · rw [decode_add hd]; rfl
  · rw [decode_lda hd]; rfl
  · rw [decode_sta hd]; rfl
  · rw [decode_bun hd]; rfl
  · rw [decode_bsa hd]; rfl
  · rw [decode_isz hd]; rfl
  · exact absurd hd h

/-! ### The word HLT -/

/-- Only the select field 0x001 is HLT's: bit 0 set and no bit above it (R94, R95). -/
theorem decodeRegRef_eq_hlt {sel : SelField} (h : decodeRegRef sel = .hlt) : sel = 1 := by
  simp only [decodeRegRef, ite_eq_iff, reduceCtorEq, and_false, false_or, or_false, and_true] at h
  obtain ⟨h11, h10, h9, h8, h7, h6, h5, h4, h3, h2, h1, h0⟩ := h
  refine BitVec.eq_of_getLsbD_eq fun j hj => ?_
  interval_cases j <;> simp_all

/-- HLT is the one word 0x7001 (R94, R172). -/
theorem decode_eq_hlt_iff (w : Word) : decode w = .hlt ↔ w = 0x7001 := by
  refine ⟨fun h => ?_, fun h => h ▸ rfl⟩
  rcases opcode_cases (opcodeOf w) with hd | hd | hd | hd | hd | hd | hd | hd
  · simp [decode_and hd] at h
  · simp [decode_add hd] at h
  · simp [decode_lda hd] at h
  · simp [decode_sta hd] at h
  · simp [decode_bun hd] at h
  · simp [decode_bsa hd] at h
  · simp [decode_isz hd] at h
  · rcases bit_cases (ibitOf w) with hi | hi
    · rw [decode_regRef hd hi] at h
      rw [← joinWord_fields w, hd, hi, decodeRegRef_eq_hlt h]
      rfl
    · rw [decode_inOut hd hi] at h
      exact absurd h (decodeInOut_all (P := (· ≠ .hlt)) (by simp) (by simp) (by simp) (by simp) (by simp) (by simp)
        (by simp) _)

/-! ### The rows of the (T, D) table as equations (40_fetch_decode.md R122, R127 to R129) -/

theorem exec_memRef_T3 {s : State} (h : s.sc = 3) (hd : opcodeOf s.ir ≠ 7) :
    exec (decode s.ir) s = dereference .fault (modeOf (ibitOf s.ir)) s := by
  rcases opcode_cases (opcodeOf s.ir) with hd' | hd' | hd' | hd' | hd' | hd' | hd' | hd'
  · rw [decode_and hd']; exact if_pos h
  · rw [decode_add hd']; exact if_pos h
  · rw [decode_lda hd']; exact if_pos h
  · rw [decode_sta hd']; exact if_pos h
  · rw [decode_bun hd']; exact if_pos h
  · rw [decode_bsa hd']; exact if_pos h
  · rw [decode_isz hd']; exact if_pos h
  · exact absurd hd' hd

theorem exec_regRef {s : State} (hd : opcodeOf s.ir = 7) (hi : ibitOf s.ir = 0) :
    exec (decode s.ir) s = regRefStep (regRefOp (decode s.ir)) s := by
  rw [decode_regRef hd hi]; exact exec_decodeRegRef _ s

theorem exec_inOut {s : State} (hd : opcodeOf s.ir = 7) (hi : ibitOf s.ir = 1) :
    exec (decode s.ir) s = inOutStep s := by
  rw [decode_inOut hd hi]; exact exec_decodeInOut _ s

theorem exec_load_T4 {s : State} (h : s.sc = 4)
    (hd : opcodeOf s.ir = 0 ∨ opcodeOf s.ir = 1 ∨ opcodeOf s.ir = 2 ∨ opcodeOf s.ir = 6) :
    exec (decode s.ir) s = loadOperand .fault s := by
  rcases hd with hd | hd | hd | hd
  · simp [decode_and hd, exec, execAnd, h, Config.unsetPolicy]
  · simp [decode_add hd, exec, execAdd, h, Config.unsetPolicy]
  · simp [decode_lda hd, exec, execLda, h, Config.unsetPolicy]
  · simp [decode_isz hd, exec, execIsz, h, Config.unsetPolicy]

theorem exec_sta_T4 {s : State} (h : s.sc = 4) (hd : opcodeOf s.ir = 3) : exec (decode s.ir) s = .next (staT4 s) := by
  simp [decode_sta hd, exec, execSta, h]

theorem exec_bun_T4 {s : State} (h : s.sc = 4) (hd : opcodeOf s.ir = 4) : exec (decode s.ir) s = .next (bunT4 s) := by
  simp [decode_bun hd, exec, execBun, h]

theorem exec_bsa_T4 {s : State} (h : s.sc = 4) (hd : opcodeOf s.ir = 5) : exec (decode s.ir) s = .next (bsaT4 s) := by
  simp [decode_bsa hd, exec, execBsa, h]

theorem exec_and_T5 {s : State} (h : s.sc = 5) (hd : opcodeOf s.ir = 0) : exec (decode s.ir) s = .next (andT5 s) := by
  simp [decode_and hd, exec, execAnd, h]

theorem exec_add_T5 {s : State} (h : s.sc = 5) (hd : opcodeOf s.ir = 1) : exec (decode s.ir) s = .next (addT5 s) := by
  simp [decode_add hd, exec, execAdd, h]

theorem exec_lda_T5 {s : State} (h : s.sc = 5) (hd : opcodeOf s.ir = 2) : exec (decode s.ir) s = .next (ldaT5 s) := by
  simp [decode_lda hd, exec, execLda, h]

theorem exec_bsa_T5 {s : State} (h : s.sc = 5) (hd : opcodeOf s.ir = 5) : exec (decode s.ir) s = .next (bsaT5 s) := by
  simp [decode_bsa hd, exec, execBsa, h]

theorem exec_isz_T5 {s : State} (h : s.sc = 5) (hd : opcodeOf s.ir = 6) : exec (decode s.ir) s = .next (iszT5 s) := by
  simp [decode_isz hd, exec, execIsz, h]

theorem exec_isz_T6 {s : State} (h : s.sc = 6) (hd : opcodeOf s.ir = 6) : exec (decode s.ir) s = .next (iszT6 s) := by
  simp [decode_isz hd, exec, execIsz, h]

theorem step_T0 {s : State} (hr : Running s) (h : s.sc = 0) : step s = fetchT0 s := by
  simp [step_of_running hr, h]

theorem step_T1 {s : State} (hr : Running s) (h : s.sc = 1) : step s = fetchT1 .fault s := by
  simp [step_of_running hr, h]

theorem step_T2 {s : State} (hr : Running s) (h : s.sc = 2) : step s = fetchT2 s := by
  simp [step_of_running hr, h]

/-- From T3 on a running machine performs the micro-step of the instruction in IR (R122). -/
theorem step_from_T3 {s : State} (hr : Running s) (h : 3 ≤ s.sc.toNat) : step s = exec (decode s.ir) s := by
  have hne : ∀ b : Bits3, 3 ≤ b.toNat → b ≠ 0 ∧ b ≠ 1 ∧ b ≠ 2 := by decide
  obtain ⟨h0, h1, h2⟩ := hne s.sc h
  rw [step_of_running hr, if_neg h0, if_neg h1, if_neg h2]

/-! ### What a micro-step that goes on has done -/

/-- The next states of a running machine, one constructor per row of the (T, D) table (R122), each the state before it
with the written fields replaced. -/
inductive MicroStep (s : State) : State → Prop where
  | fetchT0 (h : s.sc = 0) : MicroStep s { s with ar := s.pc, sc := 1 }
  | fetchT1 (h : s.sc = 1) (v : Word) (hv : s.mem.read s.ar.toNat = some v) :
      MicroStep s { s with ir := v, pc := s.pc + 1, sc := 2 }
  | fetchT2 (h : s.sc = 2) : MicroStep s { s with ar := addrOf s.ir, indFlag := ibitOf s.ir, sc := 3 }
  | direct (h : s.sc = 3) (hd : opcodeOf s.ir ≠ 7) (hi : ibitOf s.ir = 0) : MicroStep s { s with sc := 4 }
  | indirect (h : s.sc = 3) (hd : opcodeOf s.ir ≠ 7) (hi : ibitOf s.ir = 1) (v : Word)
      (hv : s.mem.read s.ar.toNat = some v) : MicroStep s { s with ar := addrOf v, sc := 4 }
  | regRef (h : s.sc = 3) (hd : opcodeOf s.ir = 7) (hi : ibitOf s.ir = 0) :
      MicroStep s { regRefOp (decode s.ir) s with sc := 0 }
  | load (h : s.sc = 4) (hd : opcodeOf s.ir = 0 ∨ opcodeOf s.ir = 1 ∨ opcodeOf s.ir = 2 ∨ opcodeOf s.ir = 6)
      (v : Word) (hv : s.mem.read s.ar.toNat = some v) : MicroStep s { s with dr := v, sc := 5 }
  | sta (h : s.sc = 4) (hd : opcodeOf s.ir = 3) : MicroStep s { s with mem := memWrite s.mem s.ar s.ac, sc := 0 }
  | bun (h : s.sc = 4) (hd : opcodeOf s.ir = 4) : MicroStep s { s with pc := s.ar, sc := 0 }
  | bsaStore (h : s.sc = 4) (hd : opcodeOf s.ir = 5) :
      MicroStep s { s with mem := memWrite s.mem s.ar (s.pc.setWidth 16), ar := s.ar + 1, sc := 5 }
  | and (h : s.sc = 5) (hd : opcodeOf s.ir = 0) : MicroStep s { s with ac := s.ac &&& s.dr, sc := 0 }
  | add (h : s.sc = 5) (hd : opcodeOf s.ir = 1) :
      MicroStep s { s with ac := s.ac + s.dr, e := carryOfAdd s.ac s.dr, sc := 0 }
  | lda (h : s.sc = 5) (hd : opcodeOf s.ir = 2) : MicroStep s { s with ac := s.dr, sc := 0 }
  | bsaJump (h : s.sc = 5) (hd : opcodeOf s.ir = 5) : MicroStep s { s with pc := s.ar, sc := 0 }
  | iszIncrement (h : s.sc = 5) (hd : opcodeOf s.ir = 6) : MicroStep s { s with dr := s.dr + 1, sc := 6 }
  | iszStore (h : s.sc = 6) (hd : opcodeOf s.ir = 6) :
      MicroStep s { s with
        mem := memWrite s.mem s.ar s.dr, pc := if s.dr = 0 then s.pc + 1 else s.pc, sc := 0 }

theorem addT5_eq (s : State) : addT5 s = { s with ac := s.ac + s.dr, e := carryOfAdd s.ac s.dr, sc := 0 } := by
  rw [addT5, Reg.add_word]; rfl

theorem bsaT4_eq {s : State} (h : s.sc = 4) :
    bsaT4 s = { s with mem := memWrite s.mem s.ar (s.pc.setWidth 16), ar := s.ar + 1, sc := 5 } := by
  simp [bsaT4, State.advanceT, Reg.increment_eq_add_one, h]

theorem iszT5_eq {s : State} (h : s.sc = 5) : iszT5 s = { s with dr := s.dr + 1, sc := 6 } := by
  simp [iszT5, State.advanceT, Reg.increment_eq_add_one, h]

theorem iszT6_eq (s : State) :
    iszT6 s = { s with
      mem := memWrite s.mem s.ar s.dr, pc := if s.dr = 0 then s.pc + 1 else s.pc, sc := 0 } := by
  have hpc := (s.store s.dr).skipIf_pc_of_iff (isZeroWord_iff s.dr)
  rw [State.store_pc] at hpc
  rw [← hpc]; rfl

/-- T3 of a memory-reference word that goes on: direct, or through a written pointer (R127). -/
theorem MicroStep.of_dereference {s t : State} (h : s.sc = 3) (hd : opcodeOf s.ir ≠ 7)
    (hs : dereference .fault (modeOf (ibitOf s.ir)) s = .next t) : MicroStep s t := by
  have hmode : ∀ b : Bit, (modeOf b = .direct → b = 0) ∧ (modeOf b = .indirect → b = 1) := by decide
  obtain ⟨hdir, hind⟩ := hmode (ibitOf s.ir)
  rcases dereference_next hs with ⟨hm, rfl⟩ | ⟨hm, v, hv, rfl⟩
  · simp only [State.advanceT, Reg.increment_eq_add_one, h]; exact .direct h hd (hdir hm)
  · simp only [State.advanceT, Reg.increment_eq_add_one, h]; exact .indirect h hd (hind hm) v hv

theorem MicroStep.of_loadOperand {s t : State} (h : s.sc = 4)
    (hd : opcodeOf s.ir = 0 ∨ opcodeOf s.ir = 1 ∨ opcodeOf s.ir = 2 ∨ opcodeOf s.ir = 6)
    (hs : loadOperand .fault s = .next t) : MicroStep s t := by
  obtain ⟨v, hv, rfl⟩ := loadOperand_next hs
  simp only [State.advanceT, Reg.increment_eq_add_one, h]
  exact .load h hd v hv

/-- From T3 on: the rows of the instruction in IR. -/
theorem MicroStep.of_exec {s t : State} (hs : exec (decode s.ir) s = .next t) : MicroStep s t := by
  rcases opcode_cases (opcodeOf s.ir) with hd | hd | hd | hd | hd | hd | hd | hd
  · rw [decode_and hd] at hs
    rcases execAnd_next hs with ⟨h, hs⟩ | ⟨h, hs⟩ | ⟨h, rfl⟩
    · exact .of_dereference h (by simp [hd]) hs
    · exact .of_loadOperand h (by simp [hd]) hs
    · exact .and h hd
  · rw [decode_add hd] at hs
    rcases execAdd_next hs with ⟨h, hs⟩ | ⟨h, hs⟩ | ⟨h, rfl⟩
    · exact .of_dereference h (by simp [hd]) hs
    · exact .of_loadOperand h (by simp [hd]) hs
    · rw [addT5_eq]; exact .add h hd
  · rw [decode_lda hd] at hs
    rcases execLda_next hs with ⟨h, hs⟩ | ⟨h, hs⟩ | ⟨h, rfl⟩
    · exact .of_dereference h (by simp [hd]) hs
    · exact .of_loadOperand h (by simp [hd]) hs
    · exact .lda h hd
  · rw [decode_sta hd] at hs
    rcases execSta_next hs with ⟨h, hs⟩ | ⟨h, rfl⟩
    · exact .of_dereference h (by simp [hd]) hs
    · exact .sta h hd
  · rw [decode_bun hd] at hs
    rcases execBun_next hs with ⟨h, hs⟩ | ⟨h, rfl⟩
    · exact .of_dereference h (by simp [hd]) hs
    · exact .bun h hd
  · rw [decode_bsa hd] at hs
    rcases execBsa_next hs with ⟨h, hs⟩ | ⟨h, rfl⟩ | ⟨h, rfl⟩
    · exact .of_dereference h (by simp [hd]) hs
    · rw [bsaT4_eq h]; exact .bsaStore h hd
    · exact .bsaJump h hd
  · rw [decode_isz hd] at hs
    rcases execIsz_next hs with ⟨h, hs⟩ | ⟨h, hs⟩ | ⟨h, rfl⟩ | ⟨h, rfl⟩
    · exact .of_dereference h (by simp [hd]) hs
    · exact .of_loadOperand h (by simp [hd]) hs
    · rw [iszT5_eq h]; exact .iszIncrement h hd
    · rw [iszT6_eq]; exact .iszStore h hd
  · rcases bit_cases (ibitOf s.ir) with hi | hi
    · rw [exec_regRef hd hi] at hs
      obtain ⟨h, rfl⟩ := regRefStep_next hs
      exact .regRef h hd hi
    · rw [exec_inOut hd hi] at hs
      exact absurd hs (inOutStep_ne_next s t)

/-- A row of the table is what the running machine does. -/
theorem MicroStep.step_eq {s t : State} (hr : Running s) (hm : MicroStep s t) : step s = .next t := by
  cases hm with
  | fetchT0 h => simp [step_T0 hr h, Machine.fetchT0, State.advanceT, Reg.increment_eq_add_one, h]
  | fetchT1 h v hv =>
    rw [step_T1 hr h, Machine.fetchT1, withRead_some hv]
    simp [State.advanceT, Reg.increment_eq_add_one, h]
  | fetchT2 h => simp [step_T2 hr h, Machine.fetchT2, State.advanceT, Reg.increment_eq_add_one, h]
  | direct h hd hi =>
    rw [step_from_T3 hr (by simp [h]), exec_memRef_T3 h hd, hi]
    simp [modeOf, dereference, State.advanceT, Reg.increment_eq_add_one, h]
  | indirect h hd hi v hv =>
    rw [step_from_T3 hr (by simp [h]), exec_memRef_T3 h hd, hi]
    simp [modeOf, dereference, withRead_some hv, State.advanceT, Reg.increment_eq_add_one, h]
  | regRef h hd hi => rw [step_from_T3 hr (by simp [h]), exec_regRef hd hi]; exact if_pos h
  | load h hd v hv =>
    rw [step_from_T3 hr (by simp [h]), exec_load_T4 h hd]
    simp [loadOperand, withRead_some hv, State.advanceT, Reg.increment_eq_add_one, h]
  | sta h hd => rw [step_from_T3 hr (by simp [h]), exec_sta_T4 h hd]; rfl
  | bun h hd => rw [step_from_T3 hr (by simp [h]), exec_bun_T4 h hd]; rfl
  | bsaStore h hd => rw [step_from_T3 hr (by simp [h]), exec_bsa_T4 h hd, bsaT4_eq h]
  | and h hd => rw [step_from_T3 hr (by simp [h]), exec_and_T5 h hd]; rfl
  | add h hd => rw [step_from_T3 hr (by simp [h]), exec_add_T5 h hd, addT5_eq]
  | lda h hd => rw [step_from_T3 hr (by simp [h]), exec_lda_T5 h hd]; rfl
  | bsaJump h hd => rw [step_from_T3 hr (by simp [h]), exec_bsa_T5 h hd]; rfl
  | iszIncrement h hd => rw [step_from_T3 hr (by simp [h]), exec_isz_T5 h hd, iszT5_eq h]
  | iszStore h hd => rw [step_from_T3 hr (by simp [h]), exec_isz_T6 h hd, iszT6_eq]

/-- THE inversion of a micro-step: it goes on exactly when the machine runs, and then by one row of the table. -/
theorem step_eq_next_iff {s t : State} : step s = .next t ↔ Running s ∧ MicroStep s t := by
  refine ⟨fun hs => ⟨running_of_step_next hs, ?_⟩, fun ⟨hr, hm⟩ => hm.step_eq hr⟩
  rcases step_next hs with ⟨h, rfl⟩ | ⟨h, v, hv, rfl⟩ | ⟨h, rfl⟩ | ⟨-, -, -, hs⟩
  · simp only [State.advanceT, Reg.increment_eq_add_one, h]; exact .fetchT0 h
  · simp only [State.advanceT, Reg.increment_eq_add_one, h]; exact .fetchT1 h v hv
  · simp only [State.advanceT, Reg.increment_eq_add_one, h]; exact .fetchT2 h
  · exact .of_exec hs

theorem microStep_of_step {s t : State} (h : step s = .next t) : MicroStep s t := (step_eq_next_iff.1 h).2

end Sys2Proof.Machine

/-! PROOFS, family 10_state.md. The machine's invariant and the rules of the single registers, each a case analysis over
`MicroStep`. -/

namespace Sys2Proof.Machine

/-! ### The invariant (10_state.md R21, R37, R45, R60, R132) -/

theorem MicroStep.mem_wf {s t : State} (hm : MicroStep s t) (hwf : s.mem.wf) : t.mem.wf := by
  cases hm
  case sta | bsaStore | iszStore => exact memWrite_wf hwf _ _
  case regRef => rwa [regRefOp_mem]
  all_goals exact hwf

theorem MicroStep.controlReachable {s t : State} (hm : MicroStep s t) : ControlReachable t := by
  cases hm
  case direct hd _ => exact .inr (.inl ⟨rfl, hd⟩)
  case indirect hd _ _ _ => exact .inr (.inl ⟨rfl, hd⟩)
  case load hd _ _ =>
    refine .inr (.inr (.inl ⟨rfl, ?_⟩))
    rcases hd with hd | hd | hd | hd <;> simp [hd]
  case bsaStore hd => exact .inr (.inr (.inl ⟨rfl, by simp [hd]⟩))
  case iszIncrement hd => exact .inr (.inr (.inr ⟨rfl, hd⟩))
  all_goals exact .inl (by simp)

/-- T2 makes I agree with IR; from then on neither changes before the instruction retires. -/
theorem MicroStep.indFlagAgrees {s t : State} (hm : MicroStep s t) (hi : IndFlagAgrees s) : IndFlagAgrees t := by
  cases hm
  case fetchT2 => exact fun _ => rfl
  case direct h _ _ | indirect h _ _ _ _ | load h _ _ _ | bsaStore h _ | iszIncrement h _ => exact fun _ => hi (by simp [h])
  all_goals exact fun h3 => absurd h3 (by simp)

theorem MicroStep.addressAgrees {s t : State} (hm : MicroStep s t) : AddressAgrees t := by
  cases hm
  case fetchT0 => exact ⟨fun _ => rfl, fun h3 => absurd h3 (by simp)⟩
  case fetchT2 => exact ⟨fun h1 => absurd h1 (by simp), fun _ => rfl⟩
  all_goals exact ⟨fun h1 => absurd h1 (by simp), fun h3 => absurd h3 (by simp)⟩

/-- Only T3 of HLT writes the run-flag, and it leaves the machine with SC = 0 (R41, R172). -/
theorem MicroStep.runFlag_eq {s t : State} (hm : MicroStep s t) :
    t.runFlag = s.runFlag ∨ (s.sc = 3 ∧ s.ir = 0x7001 ∧ t = { s with runFlag := 0, sc := 0 }) := by
  cases hm
  case regRef h hd hi =>
    by_cases hlt : decode s.ir = .hlt
    · exact .inr ⟨h, (decode_eq_hlt_iff _).1 hlt, by rw [hlt]; rfl⟩
    · exact .inl ((regRefOp_runFlag _ s).trans (if_neg hlt))
  all_goals exact .inl rfl

theorem MicroStep.launched_eq {s t : State} (hm : MicroStep s t) : t.launched = s.launched := by
  cases hm
  case regRef => exact regRefOp_launched _ s
  all_goals rfl

theorem MicroStep.fault_eq {s t : State} (hm : MicroStep s t) : t.fault = s.fault := by
  cases hm
  case regRef => exact regRefOp_fault _ s
  all_goals rfl

theorem MicroStep.runAgrees {s t : State} (hm : MicroStep s t) (hr : Running s) (ha : RunAgrees s) : RunAgrees t := by
  refine ⟨fun h0 => ?_, fun _ => hm.launched_eq.trans (ha.2 hr.1)⟩
  rcases hm.runFlag_eq with h | ⟨-, -, rfl⟩
  · rw [h, hr.1] at h0; exact absurd h0 (by decide)
  · rfl

/-- Settles O17: each part of the invariant is kept by every row of the (T, D) table. -/
theorem everyStepKeepsTheInvariant : Obligations.EveryStepKeepsTheInvariant := by
  rintro s t ⟨hwf, -, hind, -, hrun⟩ hs
  obtain ⟨hr, hm⟩ := step_eq_next_iff.1 hs
  exact ⟨hm.mem_wf hwf, hm.controlReachable, hm.indFlagAgrees hind, hm.addressAgrees, hm.runAgrees hr hrun⟩

/-- Settles O18: construction leaves the control unit at a boundary, not launched, over an empty memory. -/
theorem constructionState : Obligations.ConstructionState := by
  refine ⟨fun r => ⟨rfl, rfl, rfl, rfl, fun _ => rfl, rfl, rfl, rfl, rfl, rfl, rfl, rfl, ?_⟩, rfl⟩
  have hsc : (State.resetWith r).sc = 0 := rfl
  have hrun : (State.resetWith r).runFlag = 0 := rfl
  exact ⟨Memory.wf_nil, .inl (by simp [hsc]), by simp [IndFlagAgrees, hsc], by simp [AddressAgrees, hsc],
    by simp [RunAgrees, hsc, hrun]⟩

/-! ### No refusal for the control state (R45, R254) -/

theorem dereference_ne_refused (mode : AddrMode) (s : State) (r : Refusal) :
    dereference .fault mode s ≠ .refused r := by
  cases mode with
  | direct => simp [dereference]
  | indirect => exact withRead_ne_refused r

theorem exec_T3_ne_refused {s : State} (h : s.sc = 3) (r : Refusal) : exec (decode s.ir) s ≠ .refused r := by
  by_cases hd : opcodeOf s.ir = 7
  · rcases bit_cases (ibitOf s.ir) with hi | hi
    · simp [exec_regRef hd hi, regRefStep, h]
    · simp [exec_inOut hd hi, inOutStep, raise, h]
  · rw [exec_memRef_T3 h hd]; exact dereference_ne_refused _ s r

theorem exec_T4_ne_refused {s : State} (h : s.sc = 4) (hd : opcodeOf s.ir ≠ 7) (r : Refusal) :
    exec (decode s.ir) s ≠ .refused r := by
  have hload : loadOperand .fault s ≠ .refused r := withRead_ne_refused r
  rcases opcode_cases (opcodeOf s.ir) with hd' | hd' | hd' | hd' | hd' | hd' | hd' | hd'
  · rwa [exec_load_T4 h (by simp [hd'])]
  · rwa [exec_load_T4 h (by simp [hd'])]
  · rwa [exec_load_T4 h (by simp [hd'])]
  · simp [exec_sta_T4 h hd']
  · simp [exec_bun_T4 h hd']
  · simp [exec_bsa_T4 h hd']
  · rwa [exec_load_T4 h (by simp [hd'])]
  · exact absurd hd' hd

theorem exec_T5_ne_refused {s : State} (h : s.sc = 5)
    (hd : opcodeOf s.ir = 0 ∨ opcodeOf s.ir = 1 ∨ opcodeOf s.ir = 2 ∨ opcodeOf s.ir = 5 ∨ opcodeOf s.ir = 6)
    (r : Refusal) : exec (decode s.ir) s ≠ .refused r := by
  rcases hd with hd | hd | hd | hd | hd
  · simp [exec_and_T5 h hd]
  · simp [exec_add_T5 h hd]
  · simp [exec_lda_T5 h hd]
  · simp [exec_bsa_T5 h hd]
  · simp [exec_isz_T5 h hd]

/-- A running machine in a reachable control state is not refused at all. -/
theorem step_ne_refused {s : State} (hr : Running s) (hc : ControlReachable s) (r : Refusal) : step s ≠ .refused r := by
  rcases hc with h | ⟨h, hd⟩ | ⟨h, hd⟩ | ⟨h, hd⟩
  · have hcases : ∀ b : Bits3, b.toNat ≤ 3 → b = 0 ∨ b = 1 ∨ b = 2 ∨ b = 3 := by decide
    rcases hcases s.sc h with h | h | h | h
    · simp [step_T0 hr h, fetchT0]
    · rw [step_T1 hr h]; exact withRead_ne_refused r
    · simp [step_T2 hr h, fetchT2]
    · rw [step_from_T3 hr (by simp [h])]; exact exec_T3_ne_refused h r
  · rw [step_from_T3 hr (by simp [h])]; exact exec_T4_ne_refused h hd r
  · rw [step_from_T3 hr (by simp [h])]; exact exec_T5_ne_refused h hd r
  · rw [step_from_T3 hr (by simp [h]), exec_isz_T6 h hd]; simp

/-- A machine that does not run is refused as faulted or as halted (R121). -/
theorem step_of_not_running {s : State} (hr : ¬ Running s) :
    step s = .refused .faultRecorded ∨ step s = .refused .halted := by
  by_cases hf : s.fault = none
  · have h0 : s.runFlag = 0 := by
      rcases bit_cases s.runFlag with h | h
      · exact h
      · exact absurd ⟨h, hf⟩ hr
    exact .inr (by simp [step, hf, h0])
  · exact .inl (by simp [step, hf])

/-- Settles O20: a running machine is not refused, one that stands still is refused by another name. -/
theorem reachableControlIsNeverRefused : Obligations.ReachableControlIsNeverRefused := by
  rintro s ⟨-, hc, -⟩
  by_cases hr : Running s
  · exact ⟨fun t d => step_ne_refused hr hc _, fun t => step_ne_refused hr hc _⟩
  · rcases step_of_not_running hr with h | h <;> simp [h]

/-! ### What each register is after a micro-step -/

/-- The statements' bit fields under the model's names (30_encoding.md R90). -/
theorem extractLsb'_opcode (w : Word) : w.extractLsb' 12 3 = opcodeOf w := rfl
theorem extractLsb'_ibit (w : Word) : w.extractLsb' 15 1 = ibitOf w := rfl
theorem extractLsb'_addr (w : Word) : w.extractLsb' 0 12 = addrOf w := rfl

/-- Settles O42. At T3 the rule is that of the register-reference operations; a memory-reference word performs none. -/
theorem extensionBitRule : Obligations.ExtensionBitRule := by
  intro s t hs
  have hT3 := regRefOp_e (decode s.ir) s
  rw [extractLsb'_opcode]
  cases microStep_of_step hs
  case add h hd => simp [h, hd, carryOfAdd_eq]
  case regRef h hd hi => simpa [h] using hT3
  case direct h hd hi => simpa [h, regRefOp_decode_of_opcode_ne hd] using hT3
  case indirect h hd hi v hv => simpa [h, regRefOp_decode_of_opcode_ne hd] using hT3
  case and h hd | lda h hd | bsaJump h hd | iszIncrement h hd => simp [h, hd]
  case fetchT0 h | fetchT1 h _ _ | fetchT2 h | load h _ _ _ | sta h _ | bun h _ | bsaStore h _ | iszStore h _ => simp [h]

/-- Settles O43: the three T5 rows that write AC, and the five operations of T3 that do. -/
theorem accumulatorWriters : Obligations.AccumulatorWriters := by
  intro s t hs hac
  rw [extractLsb'_opcode]
  cases microStep_of_step hs
  case and h hd | add h hd | lda h hd => exact .inl ⟨h, by simp [hd]⟩
  case regRef h hd hi => exact .inr ⟨h, mnemonic_of_regRefOp_ac_ne hac⟩
  all_goals exact absurd rfl hac

/-- Settles O44: T1 writes IR, T4 with an operand and T5 of ISZ write DR. -/
theorem instructionAndDataRegisterRules : Obligations.InstructionAndDataRegisterRules := by
  intro s t hs
  rw [extractLsb'_opcode]
  cases microStep_of_step hs
  case fetchT1 h v hv => simp [h, hv]
  case load h hd v hv =>
    exact ⟨by simp [h], fun _ => rfl, fun _ => hv, by simp [h], fun hno _ => absurd ⟨h, hd⟩ hno⟩
  case iszIncrement h hd => simp [h, hd]
  case sta h hd | bun h hd | bsaStore h hd | and h hd | add h hd | lda h hd | bsaJump h hd => simp [h, hd]
  case fetchT0 h | fetchT2 h | direct h _ _ | indirect h _ _ _ _ | regRef h _ _ | iszStore h _ => simp [h]

/-- Settles O45. At T3 the rule is that of the register-reference operations, as for E. -/
theorem programCounterRule : Obligations.ProgramCounterRule := by
  intro s t hs
  have hT3 := regRefOp_pc (decode s.ir) s
  rw [extractLsb'_opcode]
  cases microStep_of_step hs
  case regRef h hd hi => simpa [h] using hT3
  case direct h hd hi => simpa [h, regRefOp_decode_of_opcode_ne hd] using hT3
  case indirect h hd hi v hv => simpa [h, regRefOp_decode_of_opcode_ne hd] using hT3
  case load h hd v hv => rcases hd with hd | hd | hd | hd <;> simp [h, hd]
  case bun h hd | bsaJump h hd | sta h hd | bsaStore h hd | and h hd | add h hd | lda h hd | iszIncrement h hd =>
    simp [h, hd]
  case fetchT0 h | fetchT1 h _ _ | fetchT2 h | iszStore h _ => simp [h]

/-- Settles O46: T0, T2, T3 through a pointer and T4 of BSA write AR. -/
theorem addressRegisterRule : Obligations.AddressRegisterRule := by
  intro s t hs
  rw [extractLsb'_opcode, extractLsb'_ibit, extractLsb'_addr]
  cases microStep_of_step hs
  case indirect h hd hi v hv =>
    exact ⟨by simp [h], by simp [h], fun _ => ⟨v, hv, rfl⟩, by simp [h], fun _ _ hno _ => absurd ⟨h, hd, hi⟩ hno⟩
  case load h hd v hv => rcases hd with hd | hd | hd | hd <;> simp [h, hd]
  case direct h hd hi => simp [h, hi]
  case regRef h hd hi => simp [h, hd]
  case sta h hd | bun h hd | bsaStore h hd => simp [h, hd]
  case fetchT0 h | fetchT1 h _ _ | fetchT2 h | and h _ | add h _ | lda h _ | bsaJump h _ | iszIncrement h _ | iszStore h _ =>
    simp [h]

/-- A memory-reference instruction takes more than four micro-steps (R294). -/
theorem microStepsOf_ne_four {w : Word} (hd : opcodeOf w ≠ 7) : Schedule.microStepsOf w ≠ 4 := by
  rw [Schedule.microStepsOf, if_neg hd]
  split
  · decide
  · split <;> decide

/-- Settles O47: SC after each row, against the number of micro-steps of its word. -/
theorem sequenceCounterRule : Obligations.SequenceCounterRule := by
  intro s t hs
  cases microStep_of_step hs
  case direct h hd hi => simpa [h] using (microStepsOf_ne_four hd).symm
  case indirect h hd hi v hv => simpa [h] using (microStepsOf_ne_four hd).symm
  case load h hd v hv => rcases hd with hd | hd | hd | hd <;> simp [h, hd, Schedule.microStepsOf]
  case fetchT0 h | fetchT1 h _ _ | fetchT2 h => simp [h]
  case regRef h hd _ | sta h hd | bun h hd | bsaStore h hd | and h hd | add h hd | lda h hd | bsaJump h hd
      | iszIncrement h hd | iszStore h hd =>
    simp [h, hd, Schedule.microStepsOf]

/-- Settles O48. A micro-step of 0x7001 at T3 is HLT's, which clears S; every other leaves S at 1. -/
theorem onlyHaltClearsTheRunFlag : Obligations.OnlyHaltClearsTheRunFlag := by
  intro s t hs
  obtain ⟨hr, hm⟩ := step_eq_next_iff.1 hs
  have hcleared : t.runFlag = 0 → s.sc = 3 ∧ s.ir = 0x7001 ∧ t = { s with runFlag := 0, sc := 0 } := fun h0 => by
    rcases hm.runFlag_eq with h | h
    · rw [h, hr.1] at h0; exact absurd h0 (by decide)
    · exact h
  refine ⟨hm.fault_eq, hm.launched_eq, hr.1, ⟨fun h0 => ?_, fun ⟨h3, hir⟩ => ?_⟩, fun h0 => (hcleared h0).2.2⟩
  · obtain ⟨h3, hir, -⟩ := hcleared h0
    exact ⟨h3, hir⟩
  · have hlt : step s = .next { regRefOp (decode s.ir) s with sc := 0 } :=
      (MicroStep.regRef h3 (by rw [hir]; decide) (by rw [hir]; decide)).step_eq hr
    rw [hs, (decode_eq_hlt_iff _).2 hir] at hlt
    cases hlt
    rfl

end Sys2Proof.Machine

/-! PROOFS, family 10_state.md. The register primitives for every width (10_state.md R22 to R29). -/

namespace Sys2Proof.Machine

/-- `n` increments add `n` modulo 2^b (R23). -/
theorem Reg.increment_iterate_toNat {b : Nat} (n : Nat) (w : BitVec b) :
    (Reg.increment^[n] w).toNat = (w.toNat + n) % 2 ^ b := by
  induction n with
  | zero => simp [Nat.mod_eq_of_lt w.isLt]
  | succ n ih =>
    rw [Function.iterate_succ_apply', Reg.increment, BitVec.toNat_ofNat, ih, Nat.mod_add_mod, Nat.add_assoc]

/-- Settles O6: the iterate lemma at 1 and at 2^b increments. -/
theorem incrementWrapsAround : Obligations.IncrementWrapsAround := by
  intro b w
  have hone : (Reg.increment w).toNat = (w.toNat + 1) % 2 ^ b := Reg.increment_iterate_toNat 1 w
  refine ⟨hone, fun hw => ?_, BitVec.eq_of_toNat_eq ?_⟩
  · rw [hone, hw, Nat.sub_add_cancel Nat.one_le_two_pow, Nat.mod_self]
  · rw [Reg.increment_iterate_toNat, Nat.add_mod_right, Nat.mod_eq_of_lt w.isLt]

/-- 2^b - x is the negative of x in `b` bits (R26). -/
theorem ofNat_two_pow_sub_toNat {b : Nat} (x : BitVec b) : BitVec.ofNat b (2 ^ b - x.toNat) = -x := by
  apply BitVec.eq_of_toNat_eq
  rw [BitVec.toNat_ofNat, BitVec.toNat_neg]

/-- Settles O7: the sum is the library's, so adding 2^b - x is subtracting x; its carry is that of the exact sum. -/
theorem addCarriesAndInverts : Obligations.AddCarriesAndInverts := by
  refine ⟨fun b w x => ⟨BitVec.toNat_ofNat _ _, Reg.add_carry w x, ?_, ?_⟩, rfl⟩
  · rw [Reg.add_word, Reg.add_word, ofNat_two_pow_sub_toNat, BitVec.add_assoc, BitVec.add_right_neg, BitVec.add_zero]
  · rw [Reg.add_carry, Reg.add_word, BitVec.toNat_add, BitVec.toNat_ofNat]

/-- A one-bit register is its bit 0. -/
theorem bit_ext {c d : Bit} (h : c.getLsbD 0 = d.getLsbD 0) : c = d := by
  refine BitVec.eq_of_getLsbD_eq fun j hj => ?_
  obtain rfl : j = 0 := by omega
  exact h

section Shifts

variable {b : Nat} (w : BitVec b) (c : Bit)

theorem Reg.shiftRight_out_bit : (Reg.shiftRight w c).2.getLsbD 0 = w.getLsbD 0 := by
  simp [Reg.shiftRight_out]

theorem Reg.shiftLeft_out_bit : (Reg.shiftLeft w c).2.getLsbD 0 = w.getLsbD (b - 1) := by
  simp [Reg.shiftLeft_out, BitVec.msb_eq_getLsbD_last]

theorem Reg.shiftRight_inner_bit {i : Nat} (hi : i + 1 < b) : (Reg.shiftRight w c).1.getLsbD i = w.getLsbD (i + 1) := by
  rw [Reg.shiftRight_bit]
  simp [hi, Nat.lt_of_succ_lt hi]

theorem Reg.shiftRight_top_bit (hb : 0 < b) : (Reg.shiftRight w c).1.getLsbD (b - 1) = c.getLsbD 0 := by
  rw [Reg.shiftRight_bit]
  simp [Nat.sub_add_cancel hb, hb]

theorem Reg.shiftLeft_inner_bit {i : Nat} (h0 : 0 < i) (hi : i < b) :
    (Reg.shiftLeft w c).1.getLsbD i = w.getLsbD (i - 1) := by
  rw [Reg.shiftLeft_bit]
  simp [hi, Nat.ne_of_gt h0]

theorem Reg.shiftLeft_bottom_bit (hb : 0 < b) : (Reg.shiftLeft w c).1.getLsbD 0 = c.getLsbD 0 := by
  rw [Reg.shiftLeft_bit]
  simp [hb]

/-- Shifting the outgoing bit back in undoes a right shift (R28, R29). -/
theorem Reg.shiftLeft_shiftRight (hb : 0 < b) :
    Reg.shiftLeft (Reg.shiftRight w c).1 (Reg.shiftRight w c).2 = (w, c) := by
  refine Prod.ext (BitVec.eq_of_getLsbD_eq fun i hi => ?_) (bit_ext ?_)
  · rcases Nat.eq_zero_or_pos i with rfl | h0
    · rw [Reg.shiftLeft_bottom_bit _ _ hb, Reg.shiftRight_out_bit w c]
    · rw [Reg.shiftLeft_inner_bit _ _ h0 hi, Reg.shiftRight_inner_bit _ _ (by omega), Nat.sub_add_cancel h0]
  · rw [Reg.shiftLeft_out_bit, Reg.shiftRight_top_bit _ _ hb]

/-- Shifting the outgoing bit back in undoes a left shift. -/
theorem Reg.shiftRight_shiftLeft (hb : 0 < b) :
    Reg.shiftRight (Reg.shiftLeft w c).1 (Reg.shiftLeft w c).2 = (w, c) := by
  refine Prod.ext (BitVec.eq_of_getLsbD_eq fun i hi => ?_) (bit_ext ?_)
  · rcases Nat.lt_or_ge (i + 1) b with h | h
    · rw [Reg.shiftRight_inner_bit _ _ h, Reg.shiftLeft_inner_bit _ _ (Nat.succ_pos i) h, Nat.succ_sub_one]
    · obtain rfl : i = b - 1 := by omega
      rw [Reg.shiftRight_top_bit _ _ hb, Reg.shiftLeft_out_bit]
  · rw [Reg.shiftRight_out_bit, Reg.shiftLeft_bottom_bit _ _ hb]

end Shifts

/-- Settles O8: the bit lemmas and the two inverse laws above. -/
theorem shiftsMoveBitsAndInvert : Obligations.ShiftsMoveBitsAndInvert := fun _ w c hb =>
  ⟨fun _ hi => Reg.shiftRight_inner_bit w c hi, Reg.shiftRight_top_bit w c hb, Reg.shiftRight_out_bit w c,
    fun _ h0 hi => Reg.shiftLeft_inner_bit w c h0 hi, Reg.shiftLeft_bottom_bit w c hb, Reg.shiftLeft_out_bit w c,
    Reg.shiftLeft_shiftRight w c hb, Reg.shiftRight_shiftLeft w c hb⟩

/-- Settles O9: each primitive is a library operation on bit vectors. -/
theorem transferClearAndComplement : Obligations.TransferClearAndComplement := by
  intro b w x v
  refine ⟨BitVec.toNat_ofNat _ _, ?_, ?_, fun i => ?_, ?_⟩
  · exact BitVec.toNat_zero
  · rw [Reg.complement_eq_not, BitVec.toNat_not]
  · rw [Reg.logicAnd_eq_and, BitVec.getLsbD_and]
  · rw [Reg.logicAnd_eq_and, BitVec.toNat_and]
    exact Nat.and_le_left

end Sys2Proof.Machine

/-! PROOFS, family 10_state.md. What no run can tell: the register I, and the AR, DR, IR and I an earlier instruction
left. -/

namespace Sys2Proof.Machine

/-! ### I is read by nothing (10_state.md R37, log 10) -/

/-- Two answers that differ at most in the I of their next states. -/
inductive SameButInd : Result → Result → Prop where
  | next (t : State) (c : Bit) : SameButInd (.next t) (.next { t with indFlag := c })
  | fault (f : Fault) : SameButInd (.fault f) (.fault f)
  | refused (r : Refusal) : SameButInd (.refused r) (.refused r)

/-- The two machines take the same branch of a test that does not read I. -/
theorem SameButInd.ite {p : Prop} [Decidable p] {x y x' y' : Result} (hx : SameButInd x x') (hy : SameButInd y y') :
    SameButInd (if p then x else y) (if p then x' else y') := by
  split <;> assumption

section IgnoresI

variable (s : State) (b : Bit)

theorem withRead_ignores_ind (u : Config.UnsetPolicy) (k : Word → State) :
    SameButInd (withRead u s k) (withRead u { s with indFlag := b } (fun v => { k v with indFlag := b })) := by
  simp only [withRead, raise]
  cases memRead u s.mem s.ar with
  | ok v => exact .next _ b
  | error f => exact .fault f

theorem offSchedule_ignores_ind : SameButInd (offSchedule s) (offSchedule { s with indFlag := b }) :=
  .ite (.refused _) (.refused _)

theorem dereference_ignores_ind (mode : AddrMode) :
    SameButInd (dereference .fault mode s) (dereference .fault mode { s with indFlag := b }) := by
  cases mode with
  | direct => exact .next _ b
  | indirect => exact withRead_ignores_ind s b _ _

theorem loadOperand_ignores_ind :
    SameButInd (loadOperand .fault s) (loadOperand .fault { s with indFlag := b }) :=
  withRead_ignores_ind s b _ _

theorem regRefOp_ignores_ind (i : Instr) :
    regRefOp i { s with indFlag := b } = { regRefOp i s with indFlag := b } := by
  cases i <;> rfl

theorem regRefStep_ignores_ind (i : Instr) :
    SameButInd (regRefStep (regRefOp i) s) (regRefStep (regRefOp i) { s with indFlag := b }) := by
  refine .ite ?_ (offSchedule_ignores_ind s b)
  rw [regRefOp_ignores_ind s b]
  exact .next (regRefOp i s).retire b

theorem inOutStep_ignores_ind : SameButInd (inOutStep s) (inOutStep { s with indFlag := b }) :=
  .ite (.fault _) (offSchedule_ignores_ind s b)

/-- From T3 on: every meaning is a chain of tests of SC over micro-operations that leave I alone. -/
theorem exec_ignores_ind :
    SameButInd (exec (decode s.ir) s) (exec (decode s.ir) { s with indFlag := b }) := by
  have hT3 := dereference_ignores_ind s b
  have hload := loadOperand_ignores_ind s b
  have hoff := offSchedule_ignores_ind s b
  rcases opcode_cases (opcodeOf s.ir) with hd | hd | hd | hd | hd | hd | hd | hd
  · rw [decode_and hd]; exact .ite (hT3 _) (.ite hload (.ite (.next _ b) hoff))
  · rw [decode_add hd]; exact .ite (hT3 _) (.ite hload (.ite (.next _ b) hoff))
  · rw [decode_lda hd]; exact .ite (hT3 _) (.ite hload (.ite (.next _ b) hoff))
  · rw [decode_sta hd]; exact .ite (hT3 _) (.ite (.next _ b) hoff)
  · rw [decode_bun hd]; exact .ite (hT3 _) (.ite (.next _ b) hoff)
  · rw [decode_bsa hd]; exact .ite (hT3 _) (.ite (.next _ b) (.ite (.next _ b) hoff))
  · rw [decode_isz hd]; exact .ite (hT3 _) (.ite hload (.ite (.next _ b) (.ite (.next _ b) hoff)))
  · rcases bit_cases (ibitOf s.ir) with hi | hi
    · rw [decode_regRef hd hi, exec_decodeRegRef, exec_decodeRegRef]; exact regRefStep_ignores_ind s b _
    · rw [decode_inOut hd hi, exec_decodeInOut, exec_decodeInOut]; exact inOutStep_ignores_ind s b

/-- The commuting square of one micro-step: T0 and T1 keep each machine's own I, T2 writes it from IR. -/
theorem step_ignores_ind : SameButInd (step s) (step { s with indFlag := b }) :=
  .ite (.refused _) <| .ite (.refused _) <| .ite (.next _ b) <| .ite (withRead_ignores_ind s b _ _) <|
    .ite (.next _ (ibitOf s.ir)) (exec_ignores_ind s b)

end IgnoresI

theorem runSteps_succ_fault {s : State} {f : Fault} (h : step s = .fault f) (n : Nat) :
    runSteps (n + 1) s = .fault f := by
  have hc : core.step s = .fault f := h
  simp only [runSteps, Host.Core.run, hc]
  rfl

theorem runSteps_succ_refused {s : State} {r : Refusal} (h : step s = .refused r) (n : Nat) :
    runSteps (n + 1) s = .refused r := by
  have hc : core.step s = .refused r := h
  simp only [runSteps, Host.Core.run, hc]
  rfl

/-- The square for any number of micro-steps. -/
theorem runSteps_ignores_ind (n : Nat) (s : State) (b : Bit) :
    SameButInd (runSteps n s) (runSteps n { s with indFlag := b }) := by
  induction n generalizing s b with
  | zero => exact .next s b
  | succ n ih =>
    have hstep := step_ignores_ind s b
    generalize hs : step s = x at hstep
    generalize hs' : step { s with indFlag := b } = y at hstep
    cases hstep with
    | next t c => rw [runSteps_succ hs, runSteps_succ hs']; exact ih t c
    | fault f => rw [runSteps_succ_fault hs, runSteps_succ_fault hs']; exact .fault f
    | refused r => rw [runSteps_succ_refused hs, runSteps_succ_refused hs']; exact .refused r

/-- Settles O50: the square, read off for each of the three outcomes. -/
theorem indirectFlagIsUnobservable : Obligations.IndirectFlagIsUnobservable := by
  intro n s b
  have hsame := runSteps_ignores_ind n s b
  generalize runSteps n s = x at hsame
  generalize runSteps n { s with indFlag := b } = y at hsame
  cases hsame with
  | next t c => exact ⟨fun _ h => ⟨c, by cases h; rfl⟩, by simp, by simp⟩
  | fault f => exact ⟨by simp, fun _ h => h, by simp⟩
  | refused r => exact ⟨by simp, by simp, fun _ h => h⟩

/-! ### What an earlier instruction left in AR, DR, IR and I (10_state.md R44) -/

/-- T0, T1 and T2 from a boundary (R124 to R126). -/
theorem runSteps_fetch {s : State} {w : Word} (hb : AtBoundary s) (hw : s.mem.read s.pc.toNat = some w) :
    runSteps 3 s = .next { fetched s w with sc := 3 } := by
  obtain ⟨hr, h0⟩ := hb
  have hT0 := (MicroStep.fetchT0 h0).step_eq hr
  have hT1 := MicroStep.step_eq (s := { s with ar := s.pc, sc := 1 }) hr (.fetchT1 rfl w hw)
  have hT2 := MicroStep.step_eq (s := { s with ar := s.pc, ir := w, pc := s.pc + 1, sc := 2 }) hr (.fetchT2 rfl)
  exact (runSteps_succ hT0 2).trans ((runSteps_succ hT1 1).trans (runSteps_succ hT2 0))

/-- DR is not read before it is next written: its only readers are T5 of AND, ADD, LDA and ISZ and T6 of ISZ, and T4 of
the same instruction writes it first (R141 to R143, R147). -/
def DrUnread (s : State) : Prop := s.sc.toNat ≤ 4 ∨ opcodeOf s.ir = 5

theorem regRefOp_ignores_dr (i : Instr) (s : State) (d : Word) :
    regRefOp i { s with dr := d } = { regRefOp i s with dr := d } := by
  cases i <;> rfl

/-- With another DR the micro-step either writes the same DR or keeps the other one, still unread. -/
theorem MicroStep.ignores_dr {s t : State} (hm : MicroStep s t) (hu : DrUnread s) (d : Word) :
    MicroStep { s with dr := d } t ∨ (MicroStep { s with dr := d } { t with dr := d } ∧ DrUnread t) := by
  cases hm with
  | load h hd v hv => exact .inl (.load (s := { s with dr := d }) h hd v hv)
  | fetchT0 h => exact .inr ⟨.fetchT0 h, .inl (by simp)⟩
  | fetchT1 h v hv => exact .inr ⟨.fetchT1 (s := { s with dr := d }) h v hv, .inl (by simp)⟩
  | fetchT2 h => exact .inr ⟨.fetchT2 h, .inl (by simp)⟩
  | direct h hd hi => exact .inr ⟨.direct h hd hi, .inl (by simp)⟩
  | indirect h hd hi v hv => exact .inr ⟨.indirect (s := { s with dr := d }) h hd hi v hv, .inl (by simp)⟩
  | regRef h hd hi =>
    have hm := MicroStep.regRef (s := { s with dr := d }) h hd hi
    rw [regRefOp_ignores_dr] at hm
    exact .inr ⟨hm, .inl (by simp)⟩
  | sta h hd => exact .inr ⟨.sta h hd, .inl (by simp)⟩
  | bun h hd => exact .inr ⟨.bun h hd, .inl (by simp)⟩
  | bsaStore h hd => exact .inr ⟨.bsaStore h hd, .inr hd⟩
  | bsaJump h hd => exact .inr ⟨.bsaJump h hd, .inl (by simp)⟩
  | and h hd | add h hd | lda h hd | iszIncrement h hd | iszStore h hd => simp [DrUnread, h, hd] at hu

/-- A run that goes on for one micro-step more. -/
theorem runSteps_succ_next {n : Nat} {s t : State} (h : runSteps (n + 1) s = .next t) :
    ∃ u, step s = .next u ∧ runSteps n u = .next t := by
  cases hs : step s with
  | next u => exact ⟨u, rfl, by rwa [runSteps_succ hs] at h⟩
  | fault f => rw [runSteps_succ_fault hs] at h; cases h
  | refused r => rw [runSteps_succ_refused hs] at h; cases h

/-- A run from a state that does not read its DR goes the same way with any other. -/
theorem runSteps_ignores_dr {n : Nat} {s t : State} (hu : DrUnread s) (h : runSteps n s = .next t) (d : Word) :
    ∃ d', runSteps n { s with dr := d } = .next { t with dr := d' } := by
  induction n generalizing s with
  | zero => cases h; exact ⟨d, rfl⟩
  | succ n ih =>
    obtain ⟨u, hs, h⟩ := runSteps_succ_next h
    obtain ⟨hr, hm⟩ := step_eq_next_iff.1 hs
    have hr' : Running { s with dr := d } := hr
    rcases hm.ignores_dr hu d with hm' | ⟨hm', hu'⟩
    · exact ⟨t.dr, by rw [runSteps_succ (hm'.step_eq hr'), h]⟩
    · rw [runSteps_succ (hm'.step_eq hr')]
      exact ih hu' h

theorem three_le_microStepsOf (w : Word) : 3 ≤ Schedule.microStepsOf w := by
  unfold Schedule.microStepsOf
  split_ifs <;> decide

/-- Settles O51: T0 to T2 write AR, IR and I, so at T3 the two machines differ in DR alone. -/
theorem unobservableResetValues : Obligations.UnobservableResetValues := by
  intro s w ar dr ir i t hb hw h
  obtain ⟨k, hk⟩ := Nat.exists_eq_add_of_le' (three_le_microStepsOf w)
  have hfetch := runSteps_fetch hb hw
  have hfetch' := runSteps_fetch (s := { s with ar := ar, dr := dr, ir := ir, indFlag := i }) hb hw
  rw [hk, runSteps_add hfetch] at h
  rw [hk, runSteps_add hfetch']
  exact runSteps_ignores_dr (.inl (by simp)) h dr

end Sys2Proof.Machine

/-! PROOFS, family 20_memory.md. What a micro-step does to the cells, a store seen by the next fetch, and the two unset
policies side by side. -/

namespace Sys2Proof.Machine

/-! ### Cells after a micro-step (20_memory.md R63, R68) -/

/-- Settles O49: the three rows that store do so at AR; the other rows leave memory alone. -/
theorem memoryRule : Obligations.MemoryRule := by
  intro s t hs a
  rw [extractLsb'_opcode]
  cases microStep_of_step hs
  case sta h hd | bsaStore h hd => simp [h, hd, read_memWrite]
  case iszStore h _ => simp [h, read_memWrite]
  case load h hd v hv => rcases hd with hd | hd | hd | hd <;> simp [h, hd]
  case bun h hd => simp [h, hd]
  case fetchT0 h | fetchT1 h _ _ | fetchT2 h | direct h _ _ | indirect h _ _ _ _ | regRef h _ _ | and h _ | add h _
      | lda h _ | bsaJump h _ | iszIncrement h _ =>
    simp [h]

/-! ### A store to the next word (20_memory.md R75, 41_memory_reference.md R144, 70_reset_and_hazards.md R291) -/

/-- T3 of a memory-reference word leaves the effective address in AR (R127, R140). -/
theorem step_T3_effectiveAddr {s : State} {ea : Addr} (hr : Running s) (h : s.sc = 3) (hd : opcodeOf s.ir ≠ 7)
    (hea : effectiveAddr .fault s.mem (modeOf (ibitOf s.ir)) s.ar = .ok ea) :
    step s = .next { s with ar := ea, sc := 4 } := by
  rcases bit_cases (ibitOf s.ir) with hi | hi
  · obtain rfl : s.ar = ea := by simpa [hi, modeOf, effectiveAddr] using hea
    exact (MicroStep.direct h hd hi).step_eq hr
  · cases hv : s.mem.read s.ar.toNat with
    | none => simp [hi, modeOf, effectiveAddr, memRead_fault_none hv] at hea
    | some v =>
      obtain rfl : addrOf v = ea := by simpa [hi, modeOf, effectiveAddr, memRead_fault_some hv] using hea
      exact (MicroStep.indirect h hd hi v hv).step_eq hr

/-- From a boundary to T4 of a memory-reference word. -/
theorem runSteps_to_T4 {s : State} {w : Word} {ea : Addr} (hb : AtBoundary s)
    (hw : s.mem.read s.pc.toNat = some w) (hd : opcodeOf w ≠ 7)
    (hea : effectiveAddr .fault s.mem (modeOf (ibitOf w)) (addrOf w) = .ok ea) :
    runSteps 4 s = .next { fetched s w with ar := ea, sc := 4 } :=
  (runSteps_add (runSteps_fetch hb hw) 1).trans
    (runSteps_succ (step_T3_effectiveAddr (s := { fetched s w with sc := 3 }) hb.1 rfl hd hea) 0)

/-- STA from boundary to boundary (R144, R148). -/
theorem runSteps_sta {s : State} {mode : AddrMode} {addr ea : Addr} (h : AboutToRun s (.sta mode addr))
    (hea : effectiveAddr .fault s.mem mode addr = .ok ea) :
    runSteps 5 s = .next { fetched s (encode (.sta mode addr)) with
      ar := ea, mem := memWrite s.mem ea s.ac, sc := 0 } := by
  obtain ⟨hb, -, hw⟩ := h
  have hd : opcodeOf (encode (.sta mode addr)) = 3 := opcodeOf_joinWord _ _ _
  have hT4 := runSteps_to_T4 (ea := ea) hb hw (by rw [hd]; decide) (by simpa [encode, encodeMemRef] using hea)
  have hstore := MicroStep.step_eq (s := { fetched s (encode (.sta mode addr)) with ar := ea, sc := 4 }) hb.1
    (.sta rfl hd)
  exact (runSteps_add hT4 1).trans (runSteps_succ hstore 0)

/-- Settles O30: STA ends at a boundary whose next word is the one stored, so three micro-steps fetch it. -/
theorem storeIsSeenByTheNextFetch : Obligations.StoreIsSeenByTheNextFetch := by
  intro s mode addr h hea
  have hsta := runSteps_sta h hea
  generalize hu : { fetched s (encode (.sta mode addr)) with
    ar := s.pc + 1, mem := memWrite s.mem (s.pc + 1) s.ac, sc := 0 } = u at hsta
  have hb : AtBoundary u := hu ▸ ⟨h.1.1, rfl⟩
  have hread : u.mem.read u.pc.toNat = some s.ac := hu ▸ Memory.read_write_same _ _ _
  have hpc : u.pc + 1 = s.pc + 2 := hu ▸ BitVec.add_assoc s.pc 1 1
  exact ⟨{ fetched u s.ac with sc := 3 }, (runSteps_add hsta 3).trans (runSteps_fetch hb hread), rfl, rfl, hpc,
    step_from_T3 hb.1 (by simp)⟩

/-! ### The two unset policies (20_memory.md R64, decision D1) -/

/-- What one micro-step answers under the policy `fault` and under the policy `zero`: the same, but for the read of an
unset cell, which goes on under `zero`. -/
inductive PolicyAnswers : Result → Result → Prop where
  | next (t : State) : PolicyAnswers (.next t) (.next t)
  | ioFault (w : Word) : PolicyAnswers (.fault (.ioNotImplemented w)) (.fault (.ioNotImplemented w))
  | refused (r : Refusal) : PolicyAnswers (.refused r) (.refused r)
  | unsetRead (a : Addr) (t : State) : PolicyAnswers (.fault (.uninitializedRead a)) (.next t)

/-- The tests of a micro-step do not depend on the policy. -/
theorem PolicyAnswers.ite {p : Prop} [Decidable p] {x y x' y' : Result} (hx : PolicyAnswers x x')
    (hy : PolicyAnswers y y') : PolicyAnswers (if p then x else y) (if p then x' else y') := by
  split <;> assumption

theorem PolicyAnswers.zero_next {x : Result} {t : State} (h : PolicyAnswers (.next t) x) : x = .next t := by
  cases h; rfl

theorem PolicyAnswers.zero_ne_uninitializedRead {x y : Result} (h : PolicyAnswers x y) (a : Addr) :
    y ≠ .fault (.uninitializedRead a) := by
  cases h <;> simp

/-- The one place where the policies part. -/
theorem withRead_policyAnswers (s : State) (k : Word → State) :
    PolicyAnswers (withRead .fault s k) (withRead .zero s k) := by
  cases hr : s.mem.read s.ar.toNat with
  | some v => rw [withRead_some hr, withRead_some hr]; exact .next _
  | none =>
    have hzero : withRead .zero s k = .next (k 0) := by rw [withRead, memRead_zero_none hr]
    rw [withRead_none hr, hzero]
    exact .unsetRead _ _

theorem dereference_policyAnswers (mode : AddrMode) (s : State) :
    PolicyAnswers (dereference .fault mode s) (dereference .zero mode s) := by
  cases mode with
  | direct => exact .next _
  | indirect => exact withRead_policyAnswers s _

/-- The rows T3 and T4 read through the policy; the rows T5 and T6 do not read memory (R122). -/
theorem atT3_policyAnswers (s : State) : PolicyAnswers (Schedule.atT3 .fault s) (Schedule.atT3 .zero s) :=
  .ite (dereference_policyAnswers _ s) (.ite (.next _) (.ioFault s.ir))

theorem atT4_policyAnswers (s : State) : PolicyAnswers (Schedule.atT4 .fault s) (Schedule.atT4 .zero s) :=
  .ite (withRead_policyAnswers s _) (.ite (.next _) (.ite (.next _) (.ite (.next _) (.refused _))))

theorem atT5_policyAnswers (s : State) : PolicyAnswers (Schedule.atT5 s) (Schedule.atT5 s) :=
  .ite (.next _) (.ite (.next _) (.ite (.next _) (.ite (.next _) (.ite (.next _) (.refused _)))))

theorem atT6_policyAnswers (s : State) : PolicyAnswers (Schedule.atT6 s) (Schedule.atT6 s) :=
  .ite (.next _) (.refused _)

/-- One micro-step: the guard, the three rows of the fetch, and the rows T3 to T6. -/
theorem microStep_policyAnswers (s : State) :
    PolicyAnswers (Schedule.microStep .fault s) (Schedule.microStep .zero s) :=
  .ite (.refused _) <| .ite (.refused _) <| .ite (.next _) <| .ite (withRead_policyAnswers s _) <| .ite (.next _) <|
    .ite (atT3_policyAnswers s) <| .ite (atT4_policyAnswers s) <| .ite (atT5_policyAnswers s) <|
    .ite (atT6_policyAnswers s) (.refused _)

theorem microStep_zero_of_fault_next {s t : State} (h : Schedule.microStep .fault s = .next t) :
    Schedule.microStep .zero s = .next t :=
  PolicyAnswers.zero_next (h ▸ microStep_policyAnswers s)

theorem runLoop_zero_eq_halted_iff {micro : State → Result} {s t : State} :
    runLoop micro 0 s = .halted t ↔ s.runFlag = 0 ∧ s = t := by
  rw [runLoop]; split <;> simp_all

/-- A run that ends successfully stands at S = 0 already, or goes on by one micro-step (R132, R133). -/
theorem runLoop_succ_eq_halted_iff {micro : State → Result} {n : Nat} {s t : State} :
    runLoop micro (n + 1) s = .halted t
      ↔ (s.runFlag = 0 ∧ s = t)
        ∨ (s.runFlag ≠ 0 ∧ ∃ u, micro s = .next u ∧ runLoop micro n u = .halted t) := by
  rw [runLoop]
  by_cases h0 : s.runFlag = 0
  · simp [h0]
  · rw [if_neg h0]
    cases micro s <;> simp_all

/-- A machine that goes on wherever another does, and to the same state, ends its runs where the other does. -/
theorem runLoop_halted_of_next {micro micro' : State → Result}
    (hnext : ∀ {s t}, micro s = .next t → micro' s = .next t) {n : Nat} {s t : State}
    (h : runLoop micro n s = .halted t) : runLoop micro' n s = .halted t := by
  induction n generalizing s with
  | zero => exact runLoop_zero_eq_halted_iff.2 (runLoop_zero_eq_halted_iff.1 h)
  | succ n ih =>
    refine runLoop_succ_eq_halted_iff.2 ((runLoop_succ_eq_halted_iff.1 h).imp_right ?_)
    exact fun ⟨h0, u, hs, hrun⟩ => ⟨h0, u, hnext hs, ih hrun⟩

/-- Settles O15: a run that halts under `fault` read no unset cell, so every micro-step of it is one under `zero`. -/
theorem runsWithoutFaultIgnoreThePolicy : Obligations.RunsWithoutFaultIgnoreThePolicy :=
  ⟨fun _ _ _ => runLoop_halted_of_next microStep_zero_of_fault_next,
    fun s => (microStep_policyAnswers s).zero_ne_uninitializedRead⟩

end Sys2Proof.Machine

/-! PROOFS, family 30_encoding.md. The decoder and the encoder as two views of one table: a select field with highest
bit `k` is bit `k` with the ignored bits below it, and the opcode table's rows are disjoint. -/

namespace Sys2Proof

/-! ### A select field and its highest bit (30_encoding.md R95, R97)

`sel.toNat / 2 ^ k = 1` says that `k` is the highest set bit of `sel`. -/

theorem SelField.below_iff {low : SelField} {k : Nat} : SelField.below low k = true ↔ low.toNat < 2 ^ k :=
  decide_eq_true_iff

theorem lowBits_toNat {k : Nat} (hk : k < 12) (sel : SelField) : (lowBits k sel).toNat = sel.toNat % 2 ^ k := by
  have hpow : 2 ^ k < 2 ^ 12 := Nat.pow_lt_pow_right (by decide) hk
  rw [lowBits, BitVec.toNat_and, BitVec.toNat_ofNat, Nat.mod_eq_of_lt (by omega), Nat.and_two_pow_sub_one_eq_mod]

theorem below_lowBits {k : Nat} (hk : k < 12) (sel : SelField) : SelField.below (lowBits k sel) k = true :=
  SelField.below_iff.2 (lowBits_toNat hk sel ▸ Nat.mod_lt _ (Nat.two_pow_pos k))

/-- A field without bits at or above `k` is its own low bits. -/
theorem lowBits_of_below {k : Nat} (hk : k < 12) {low : SelField} (h : SelField.below low k = true) :
    lowBits k low = low :=
  BitVec.eq_of_toNat_eq (by rw [lowBits_toNat hk, Nat.mod_eq_of_lt (SelField.below_iff.1 h)])

/-- Setting bit `k` above the ignored bits adds 2^k. -/
theorem select_or_toNat {k : Nat} (hk : k < 12) {low : SelField} (h : SelField.below low k = true) :
    (BitVec.ofNat 12 (2 ^ k) ||| low).toNat = 2 ^ k + low.toNat := by
  have hpow : 2 ^ k < 2 ^ 12 := Nat.pow_lt_pow_right (by decide) hk
  have hadd := Nat.two_pow_add_eq_or_of_lt (SelField.below_iff.1 h) 1
  rw [Nat.mul_one] at hadd
  rw [BitVec.toNat_or, BitVec.toNat_ofNat, Nat.mod_eq_of_lt hpow, hadd]

theorem select_or_highest {k : Nat} (hk : k < 12) {low : SelField} (h : SelField.below low k = true) :
    (BitVec.ofNat 12 (2 ^ k) ||| low).toNat / 2 ^ k = 1 := by
  rw [select_or_toNat hk h, Nat.add_div_left _ (Nat.two_pow_pos k), Nat.div_eq_of_lt (SelField.below_iff.1 h)]

theorem lowBits_select_or {k : Nat} (hk : k < 12) {low : SelField} (h : SelField.below low k = true) :
    lowBits k (BitVec.ofNat 12 (2 ^ k) ||| low) = low :=
  BitVec.eq_of_toNat_eq (by
    rw [lowBits_toNat hk, select_or_toNat hk h, Nat.add_mod_left, Nat.mod_eq_of_lt (SelField.below_iff.1 h)])

section HighestBit

variable {sel : SelField} {k : Nat} (h : sel.toNat / 2 ^ k = 1)

include h

theorem toNat_bounds_of_highest : 2 ^ k ≤ sel.toNat ∧ sel.toNat < 2 ^ (k + 1) := by
  have hdiv := Nat.div_add_mod sel.toNat (2 ^ k)
  have hmod := Nat.mod_lt sel.toNat (Nat.two_pow_pos k)
  rw [h] at hdiv
  omega

theorem lt_of_highest : k < 12 :=
  (Nat.pow_lt_pow_iff_right (by decide)).1 (Nat.lt_of_le_of_lt (toNat_bounds_of_highest h).1 sel.isLt)

/-- Bit `k` is set and no bit above it is. -/
theorem getLsbD_of_highest {j : Nat} (hj : k ≤ j) : sel.getLsbD j = decide (j = k) := by
  rcases Nat.eq_or_lt_of_le hj with rfl | hlt
  · simp [BitVec.getLsbD, Nat.testBit_eq_decide_div_mod_eq, h]
  · have hpow : 2 ^ (k + 1) ≤ 2 ^ j := Nat.pow_le_pow_right (by decide) hlt
    have hclear : sel.getLsbD j = false :=
      Nat.testBit_lt_two_pow (Nat.lt_of_lt_of_le (toNat_bounds_of_highest h).2 hpow)
    simp [hclear, Nat.ne_of_gt hlt]

/-- A select field is its highest bit together with the bits below it. -/
theorem select_or_lowBits : BitVec.ofNat 12 (2 ^ k) ||| lowBits k sel = sel := by
  have hk := lt_of_highest h
  refine BitVec.eq_of_toNat_eq ?_
  have hdiv := Nat.div_add_mod sel.toNat (2 ^ k)
  rw [h, Nat.mul_one] at hdiv
  rw [select_or_toNat hk (below_lowBits hk sel), lowBits_toNat hk, hdiv]

end HighestBit

theorem exists_highest {sel : SelField} (h : sel.toNat ≠ 0) : ∃ k, sel.toNat / 2 ^ k = 1 :=
  ⟨sel.toNat.log2, Nat.div_eq_of_lt_le (by simpa using Nat.log2_self_le h)
    (by simpa [Nat.pow_succ, Nat.mul_comm] using Nat.lt_log2_self (n := sel.toNat))⟩

/-! ### The two priority decoders by the highest bit (R94, R95, R97) -/

/-- The register-reference instruction of select bit `k`, with the ignored bits; HLT, bit 0, has none (R94). -/
def regRefAt : Nat → SelField → Instr
  | 11 => .cla
  | 10 => .cle
  | 9 => .cma
  | 8 => .cme
  | 7 => .cir
  | 6 => .cil
  | 5 => .inc
  | 4 => .spa
  | 3 => .sna
  | 2 => .sza
  | 1 => .sze
  | _ => fun _ => .hlt

/-- The input-output instruction of select bit `k`, 6 or higher, with the ignored bits (R97). -/
def inOutAt : Nat → SelField → Instr
  | 11 => .inp
  | 10 => .out
  | 9 => .ski
  | 8 => .sko
  | 7 => .ion
  | _ => .iof

/-- Every test above bit `k` fails and the test of bit `k` succeeds. -/
theorem decodeRegRef_of_highest {sel : SelField} {k : Nat} (h : sel.toNat / 2 ^ k = 1) :
    decodeRegRef sel = regRefAt k (lowBits k sel) := by
  have hk := lt_of_highest h
  have hbit : ∀ j, k ≤ j → sel.getLsbD j = decide (j = k) := fun _ => getLsbD_of_highest h
  interval_cases k <;> simp [decodeRegRef, regRefAt, hbit, -BitVec.getLsbD_eq_getElem]

theorem decodeInOut_of_highest {sel : SelField} {k : Nat} (h6 : 6 ≤ k) (h : sel.toNat / 2 ^ k = 1) :
    decodeInOut sel = inOutAt k (lowBits k sel) := by
  have hk := lt_of_highest h
  have hbit : ∀ j, k ≤ j → sel.getLsbD j = decide (j = k) := fun _ => getLsbD_of_highest h
  interval_cases k <;> simp [decodeInOut, inOutAt, hbit, -BitVec.getLsbD_eq_getElem]

theorem decodeInOut_of_below {sel : SelField} (h : SelField.below sel 6 = true) : decodeInOut sel = .ioNone sel := by
  have hbit : ∀ j, 6 ≤ j → sel.getLsbD j = false := fun _ => SelField.getLsbD_of_below h
  simp [decodeInOut, hbit, lowBits_of_below _ h, -BitVec.getLsbD_eq_getElem]

theorem decode_encodeRegRef {k : Nat} (hk : k < 12) {low : SelField} (h : SelField.below low k = true) :
    decode (encodeRegRef (BitVec.ofNat 12 (2 ^ k)) low) = regRefAt k low := by
  rw [encodeRegRef, decode_regRef (opcodeOf_joinWord _ _ _) (ibitOf_joinWord _ _ _), addrOf_joinWord,
    decodeRegRef_of_highest (select_or_highest hk h), lowBits_select_or hk h]

theorem decode_encodeInOut {k : Nat} (h6 : 6 ≤ k) (hk : k < 12) {low : SelField} (h : SelField.below low k = true) :
    decode (encodeInOut (BitVec.ofNat 12 (2 ^ k)) low) = inOutAt k low := by
  rw [encodeInOut, decode_inOut (opcodeOf_joinWord _ _ _) (ibitOf_joinWord _ _ _), addrOf_joinWord,
    decodeInOut_of_highest h6 (select_or_highest hk h), lowBits_select_or hk h]

/-- IO_NONE sets no select bit of its own (R97). -/
theorem encode_ioNone (low : SelField) : encode (.ioNone low) = joinWord 1 7 low :=
  congrArg (joinWord 1 7) BitVec.zero_or

@[simp] theorem opcodeOf_encodeMemRef (d : Bits3) (mode : AddrMode) (addr : Addr) :
    opcodeOf (encodeMemRef d mode addr) = d := opcodeOf_joinWord _ _ _

@[simp] theorem modeOf_ibitOf_encodeMemRef (d : Bits3) (mode : AddrMode) (addr : Addr) :
    modeOf (ibitOf (encodeMemRef d mode addr)) = mode := by
  rw [encodeMemRef, ibitOf_joinWord, modeOf_ibitOfMode]

@[simp] theorem addrOf_encodeMemRef (d : Bits3) (mode : AddrMode) (addr : Addr) :
    addrOf (encodeMemRef d mode addr) = addr := addrOf_joinWord _ _ _

/-- Settles O1: a memory-reference word by its fields, a select word by its highest select bit. -/
theorem decodeOfEncodeIsIdentity : Obligations.DecodeOfEncodeIsIdentity := by
  intro i hw
  cases i with
  | and mode addr => simp [encode, decode_and]
  | add mode addr => simp [encode, decode_add]
  | lda mode addr => simp [encode, decode_lda]
  | sta mode addr => simp [encode, decode_sta]
  | bun mode addr => simp [encode, decode_bun]
  | bsa mode addr => simp [encode, decode_bsa]
  | isz mode addr => simp [encode, decode_isz]
  | cla low => exact decode_encodeRegRef (k := 11) (by decide) hw
  | cle low => exact decode_encodeRegRef (k := 10) (by decide) hw
  | cma low => exact decode_encodeRegRef (k := 9) (by decide) hw
  | cme low => exact decode_encodeRegRef (k := 8) (by decide) hw
  | cir low => exact decode_encodeRegRef (k := 7) (by decide) hw
  | cil low => exact decode_encodeRegRef (k := 6) (by decide) hw
  | inc low => exact decode_encodeRegRef (k := 5) (by decide) hw
  | spa low => exact decode_encodeRegRef (k := 4) (by decide) hw
  | sna low => exact decode_encodeRegRef (k := 3) (by decide) hw
  | sza low => exact decode_encodeRegRef (k := 2) (by decide) hw
  | sze low => exact decode_encodeRegRef (k := 1) (by decide) hw
  | hlt => exact decode_encodeRegRef (k := 0) (low := 0) (by decide) (by decide)
  | rriNone => rfl
  | inp low => exact decode_encodeInOut (k := 11) (by decide) (by decide) hw
  | out low => exact decode_encodeInOut (k := 10) (by decide) (by decide) hw
  | ski low => exact decode_encodeInOut (k := 9) (by decide) (by decide) hw
  | sko low => exact decode_encodeInOut (k := 8) (by decide) (by decide) hw
  | ion low => exact decode_encodeInOut (k := 7) (by decide) (by decide) hw
  | iof low => exact decode_encodeInOut (k := 6) (by decide) (by decide) hw
  | ioNone low =>
    rw [encode_ioNone, decode_inOut (opcodeOf_joinWord _ _ _) (ibitOf_joinWord _ _ _), addrOf_joinWord,
      decodeInOut_of_below hw]

/-! ### Every word is the word of its instruction (R99 to R101) -/

/-- The instruction is well formed and its word is `w`: what O2 says of `decode w`. -/
def IsInstrOf (i : Instr) (w : Word) : Prop := i.wellFormed = true ∧ encode i = w

theorem regRefAt_isInstrOf {k : Nat} (hk : k < 12) {low : SelField} (h : SelField.below low k = true) :
    IsInstrOf (regRefAt k low) (encodeRegRef (BitVec.ofNat 12 (2 ^ k)) low) := by
  rcases Nat.eq_zero_or_pos k with rfl | hpos
  · obtain rfl : low = 0 := BitVec.eq_of_toNat_eq (Nat.lt_one_iff.1 (SelField.below_iff.1 h))
    exact ⟨rfl, rfl⟩
  · interval_cases k <;> exact ⟨h, rfl⟩

theorem inOutAt_isInstrOf {k : Nat} (h6 : 6 ≤ k) (hk : k < 12) {low : SelField} (h : SelField.below low k = true) :
    IsInstrOf (inOutAt k low) (encodeInOut (BitVec.ofNat 12 (2 ^ k)) low) := by
  interval_cases k <;> exact ⟨h, rfl⟩

theorem decodeRegRef_isInstrOf (sel : SelField) : IsInstrOf (decodeRegRef sel) (joinWord 0 7 sel) := by
  by_cases h0 : sel.toNat = 0
  · obtain rfl : sel = 0 := BitVec.eq_of_toNat_eq h0
    exact ⟨rfl, rfl⟩
  · obtain ⟨k, h⟩ := exists_highest h0
    have hk := lt_of_highest h
    have hi := regRefAt_isInstrOf hk (below_lowBits hk sel)
    rwa [encodeRegRef, select_or_lowBits h, ← decodeRegRef_of_highest h] at hi

theorem decodeInOut_isInstrOf (sel : SelField) : IsInstrOf (decodeInOut sel) (joinWord 1 7 sel) := by
  by_cases h6 : SelField.below sel 6 = true
  · rw [decodeInOut_of_below h6]
    exact ⟨h6, encode_ioNone sel⟩
  · have hge : 2 ^ 6 ≤ sel.toNat := Nat.not_lt.1 fun hlt => h6 (SelField.below_iff.2 hlt)
    obtain ⟨k, h⟩ := exists_highest (sel := sel) (by omega)
    have hk := lt_of_highest h
    have hk6 : 6 ≤ k := Nat.lt_succ_iff.1 <|
      (Nat.pow_lt_pow_iff_right (by decide)).1 (Nat.lt_of_le_of_lt hge (toNat_bounds_of_highest h).2)
    have hi := inOutAt_isInstrOf hk6 hk (below_lowBits hk sel)
    rwa [encodeInOut, select_or_lowBits h, ← decodeInOut_of_highest hk6 h] at hi

/-- A word is the memory-reference word of its own fields. -/
theorem encodeMemRef_fields {w : Word} {d : Bits3} (h : opcodeOf w = d) :
    encodeMemRef d (modeOf (ibitOf w)) (addrOf w) = w := by
  rw [encodeMemRef, ibitOfMode_modeOf, ← h, joinWord_fields]

theorem decode_isInstrOf (w : Word) : IsInstrOf (decode w) w := by
  rcases opcode_cases (opcodeOf w) with hd | hd | hd | hd | hd | hd | hd | hd
  · exact decode_and hd ▸ ⟨rfl, encodeMemRef_fields hd⟩
  · exact decode_add hd ▸ ⟨rfl, encodeMemRef_fields hd⟩
  · exact decode_lda hd ▸ ⟨rfl, encodeMemRef_fields hd⟩
  · exact decode_sta hd ▸ ⟨rfl, encodeMemRef_fields hd⟩
  · exact decode_bun hd ▸ ⟨rfl, encodeMemRef_fields hd⟩
  · exact decode_bsa hd ▸ ⟨rfl, encodeMemRef_fields hd⟩
  · exact decode_isz hd ▸ ⟨rfl, encodeMemRef_fields hd⟩
  · rcases Machine.bit_cases (ibitOf w) with hi | hi
    · have h := decodeRegRef_isInstrOf (addrOf w)
      rwa [← decode_regRef hd hi, ← hi, ← hd, joinWord_fields] at h
    · have h := decodeInOut_isInstrOf (addrOf w)
      rwa [← decode_inOut hd hi, ← hi, ← hd, joinWord_fields] at h

/-- Settles O2: by opcode, and for D = 7 by the highest select bit. -/
theorem encodeOfDecodeIsIdentity : Obligations.EncodeOfDecodeIsIdentity := decode_isInstrOf

/-! ### The opcode table (R100, R104) -/

/-- Every well-formed instruction's word matches the row of its mnemonic. -/
theorem rowMatch (i : Instr) : Laws.RowMatch.Statement i := by
  cases i with
  | and mode addr => exact Laws.RowMatch.and mode addr
  | add mode addr => exact Laws.RowMatch.add mode addr
  | lda mode addr => exact Laws.RowMatch.lda mode addr
  | sta mode addr => exact Laws.RowMatch.sta mode addr
  | bun mode addr => exact Laws.RowMatch.bun mode addr
  | bsa mode addr => exact Laws.RowMatch.bsa mode addr
  | isz mode addr => exact Laws.RowMatch.isz mode addr
  | cla low => exact Laws.RowMatch.cla low
  | cle low => exact Laws.RowMatch.cle low
  | cma low => exact Laws.RowMatch.cma low
  | cme low => exact Laws.RowMatch.cme low
  | cir low => exact Laws.RowMatch.cir low
  | cil low => exact Laws.RowMatch.cil low
  | inc low => exact Laws.RowMatch.inc low
  | spa low => exact Laws.RowMatch.spa low
  | sna low => exact Laws.RowMatch.sna low
  | sza low => exact Laws.RowMatch.sza low
  | sze low => exact Laws.RowMatch.sze low
  | hlt => exact Laws.RowMatch.hlt
  | rriNone => exact Laws.RowMatch.rriNone
  | inp low => exact Laws.RowMatch.inp low
  | out low => exact Laws.RowMatch.out low
  | ski low => exact Laws.RowMatch.ski low
  | sko low => exact Laws.RowMatch.sko low
  | ion low => exact Laws.RowMatch.ion low
  | iof low => exact Laws.RowMatch.iof low
  | ioNone low => exact Laws.RowMatch.ioNone low

theorem opcodeTable_nodup_mnemonic : (opcodeTable.map OpcodeRow.mnemonic).Nodup := by decide

theorem opcodeTable_nodup : opcodeTable.Nodup := opcodeTable_nodup_mnemonic.of_map

/-- Two different rows disagree on a bit that both fix. -/
theorem opcodeTable_disjoint : ∀ row ∈ opcodeTable, ∀ row' ∈ opcodeTable,
    row.pattern &&& row'.mask = row'.pattern &&& row.mask → row = row' := by decide

/-- The rows partition the words: no word matches two of them. -/
theorem covers_unique {w : Word} {row row' : OpcodeRow} (hr : row ∈ opcodeTable) (hr' : row' ∈ opcodeTable)
    (h : row.covers w = true) (h' : row'.covers w = true) : row = row' := by
  refine opcodeTable_disjoint row hr row' hr' ?_
  rw [← of_decide_eq_true h, ← of_decide_eq_true h', BitVec.and_assoc, BitVec.and_assoc, BitVec.and_comm row.mask]

/-- Settles O3: the decoded instruction's row matches the word, and no other row does. -/
theorem tableRowIsTheDecodedRow : Obligations.TableRowIsTheDecodedRow := by
  intro w
  obtain ⟨hw, henc⟩ := decode_isInstrOf w
  obtain ⟨row₀, hmem, hname, hcov⟩ := rowMatch _ hw
  rw [henc] at hcov
  have hiff : ∀ row ∈ opcodeTable, row.covers w = true ↔ row = row₀ := fun row hr =>
    ⟨fun h => covers_unique hr hmem h hcov, fun h => h ▸ hcov⟩
  refine ⟨fun row hr => (hiff row hr).trans ⟨fun h => h ▸ hname, fun h => ?_⟩, ?_⟩
  · exact List.inj_on_of_nodup_map opcodeTable_nodup_mnemonic hr hmem (h.trans hname.symm)
  · have hfilter : opcodeTable.filter (fun row => row.covers w) = opcodeTable.filter (· == row₀) :=
      List.filter_congr fun row hr => Bool.eq_iff_iff.2 ((hiff row hr).trans beq_iff_eq.symm)
    rw [hfilter, ← List.count_eq_length_filter, List.count_eq_one_of_mem opcodeTable_nodup hmem]

/-- Settles O4: the decoder run on each word. -/
theorem wordsOfTheSpecDecode : Obligations.WordsOfTheSpecDecode := by
  unfold Obligations.WordsOfTheSpecDecode
  decide

end Sys2Proof

/-! PROOFS, family 40_fetch_decode.md. The (T, D) table: the machine that decodes and dispatches is the machine of the
table, and the pairs without a row. -/

namespace Sys2Proof.Machine

/-! ### The priority list of masks (40_fetch_decode.md R122, 42_register_reference.md R160) -/

/-- The mask of select bit `k` meets the field exactly when the field holds bit `k`. -/
theorem and_ofNat_two_pow_ne_zero_iff {k : Nat} (hk : k < 12) (sel : SelField) :
    sel &&& BitVec.ofNat 12 (2 ^ k) ≠ 0 ↔ sel.getLsbD k = true := by
  have hmask : BitVec.ofNat 12 (2 ^ k) = BitVec.twoPow 12 k := BitVec.eq_of_toNat_eq (by simp)
  have hpow : BitVec.twoPow 12 k ≠ 0 := fun h => by
    have hbit : (BitVec.twoPow 12 k).getLsbD k = true := by simp [hk]
    simp [h] at hbit
  rw [hmask, BitVec.and_twoPow]
  split <;> simp_all

/-- One test of the priority decode is one pair of the list. -/
theorem regRefOp_ite_eq_firstMatch {sel : SelField} {s : State} {k : Nat} (hk : k < 12) {i j : Instr}
    {op : State → State} {rest : List (SelField × (State → State))} (hi : regRefOp i s = op s)
    (hj : regRefOp j s = Schedule.firstMatch rest sel s) :
    regRefOp (if sel.getLsbD k then i else j) s
      = Schedule.firstMatch ((BitVec.ofNat 12 (2 ^ k), op) :: rest) sel s := by
  rw [Schedule.firstMatch, if_congr (and_ofNat_two_pow_ne_zero_iff hk sel) rfl rfl]
  split
  · exact hi
  · exact hj

/-- The decoder's priority and the list's are the same (R95, R160). -/
theorem regRefOp_decodeRegRef (sel : SelField) (s : State) :
    regRefOp (decodeRegRef sel) s = Schedule.firstMatch Schedule.regRefOps sel s := by
  apply regRefOp_ite_eq_firstMatch (k := 11) (by decide) rfl
  apply regRefOp_ite_eq_firstMatch (k := 10) (by decide) rfl
  apply regRefOp_ite_eq_firstMatch (k := 9) (by decide) rfl
  apply regRefOp_ite_eq_firstMatch (k := 8) (by decide) rfl
  apply regRefOp_ite_eq_firstMatch (k := 7) (by decide) rfl
  apply regRefOp_ite_eq_firstMatch (k := 6) (by decide) rfl
  apply regRefOp_ite_eq_firstMatch (k := 5) (by decide) rfl
  apply regRefOp_ite_eq_firstMatch (k := 4) (by decide) rfl
  apply regRefOp_ite_eq_firstMatch (k := 3) (by decide) rfl
  apply regRefOp_ite_eq_firstMatch (k := 2) (by decide) rfl
  apply regRefOp_ite_eq_firstMatch (k := 1) (by decide) rfl
  exact regRefOp_ite_eq_firstMatch (k := 0) (by decide) rfl rfl

/-! ### The pairs without a row (40_fetch_decode.md R131) -/

/-- The pairs R131 lists are those no run reaches (10_state.md R45). -/
theorem not_controlReachable_iff (s : State) :
    ¬ ControlReachable s ↔
      ((s.sc = 4 ∨ s.sc = 5 ∨ s.sc = 6) ∧ opcodeOf s.ir = 7)
      ∨ (s.sc = 5 ∧ (opcodeOf s.ir = 3 ∨ opcodeOf s.ir = 4))
      ∨ (s.sc = 6 ∧ opcodeOf s.ir ≠ 6)
      ∨ s.sc = 7 := by
  rw [ControlReachable]
  generalize s.sc = t
  generalize opcodeOf s.ir = d
  revert t d
  decide

/-- From T4 on a pair without a row is off the schedule of the instruction in IR. -/
theorem exec_of_not_controlReachable {s : State} (hc : ¬ ControlReachable s) :
    exec (decode s.ir) s = .refused (.invalidSequenceState s.sc (opcodeOf s.ir)) := by
  simp only [ControlReachable, not_or, not_and] at hc
  obtain ⟨hle, h4, h5, h6⟩ := hc
  have h3 : s.sc ≠ 3 := fun h => hle (by simp [h])
  rw [← offSchedule_of_three_le (by omega)]
  rcases opcode_cases (opcodeOf s.ir) with hd | hd | hd | hd | hd | hd | hd | hd
  · simp_all [decode_and hd, exec, execAnd]
  · simp_all [decode_add hd, exec, execAdd]
  · simp_all [decode_lda hd, exec, execLda]
  · simp_all [decode_sta hd, exec, execSta]
  · simp_all [decode_bun hd, exec, execBun]
  · simp_all [decode_bsa hd, exec, execBsa]
  · simp_all [decode_isz hd, exec, execIsz]
  · rcases bit_cases (ibitOf s.ir) with hi | hi
    · rw [exec_regRef hd hi]; exact if_neg h3
    · rw [exec_inOut hd hi]; exact if_neg h3

theorem step_of_not_controlReachable {s : State} (hr : Running s) (hc : ¬ ControlReachable s) :
    step s = .refused (.invalidSequenceState s.sc (opcodeOf s.ir)) := by
  have hge : 3 ≤ s.sc.toNat := by
    have hle : ¬ s.sc.toNat ≤ 3 := fun h => hc (.inl h)
    omega
  rw [step_from_T3 hr hge, exec_of_not_controlReachable hc]

/-- Settles O16: a reachable pair is never refused (R45), an unreachable one is off the schedule. -/
theorem invalidPairsAreRefused : Obligations.InvalidPairsAreRefused := by
  intro s hr
  refine Iff.trans ⟨fun hs hc => ?_, step_of_not_controlReachable hr⟩ (not_controlReachable_iff s)
  exact step_ne_refused hr hc _ hs

/-! ### The rows T3 to T6 -/

theorem exec_eq_atT3 {s : State} (h : s.sc = 3) : exec (decode s.ir) s = Schedule.atT3 .fault s := by
  rw [Schedule.atT3]
  by_cases hd : opcodeOf s.ir = 7
  · rw [if_neg (not_not.2 hd)]
    rcases bit_cases (ibitOf s.ir) with hi | hi
    · rw [exec_regRef hd hi, if_pos hi, regRefStep, if_pos h, decode_regRef hd hi, regRefOp_decodeRegRef]
    · rw [exec_inOut hd hi, hi]; exact if_pos h
  · rw [if_pos hd, exec_memRef_T3 h hd]

theorem exec_eq_atT4 {s : State} (h : s.sc = 4) : exec (decode s.ir) s = Schedule.atT4 .fault s := by
  rcases opcode_cases (opcodeOf s.ir) with hd | hd | hd | hd | hd | hd | hd | hd
  · simp [exec_load_T4 h, Schedule.atT4, hd]
  · simp [exec_load_T4 h, Schedule.atT4, hd]
  · simp [exec_load_T4 h, Schedule.atT4, hd]
  · simp [exec_sta_T4 h hd, Schedule.atT4, hd]
  · simp [exec_bun_T4 h hd, Schedule.atT4, hd]
  · simp [exec_bsa_T4 h hd, Schedule.atT4, hd]
  · simp [exec_load_T4 h, Schedule.atT4, hd]
  · simp [exec_of_not_controlReachable, not_controlReachable_iff, Schedule.atT4, h, hd]

theorem exec_eq_atT5 {s : State} (h : s.sc = 5) : exec (decode s.ir) s = Schedule.atT5 s := by
  rcases opcode_cases (opcodeOf s.ir) with hd | hd | hd | hd | hd | hd | hd | hd
  · simp [exec_and_T5 h hd, Schedule.atT5, hd]
  · simp [exec_add_T5 h hd, Schedule.atT5, hd]
  · simp [exec_lda_T5 h hd, Schedule.atT5, hd]
  · simp [exec_of_not_controlReachable, not_controlReachable_iff, Schedule.atT5, h, hd]
  · simp [exec_of_not_controlReachable, not_controlReachable_iff, Schedule.atT5, h, hd]
  · simp [exec_bsa_T5 h hd, Schedule.atT5, hd]
  · simp [exec_isz_T5 h hd, Schedule.atT5, hd]
  · simp [exec_of_not_controlReachable, not_controlReachable_iff, Schedule.atT5, h, hd]

theorem exec_eq_atT6 {s : State} (h : s.sc = 6) : exec (decode s.ir) s = Schedule.atT6 s := by
  by_cases hd : opcodeOf s.ir = 6
  · rw [exec_isz_T6 h hd, Schedule.atT6, if_pos hd]
  · rw [exec_of_not_controlReachable ((not_controlReachable_iff s).2 (.inr (.inr (.inl ⟨h, hd⟩)))), Schedule.atT6, if_neg hd]

/-- Settles O14: the guard and the rows T0 to T2 are written the same, the rows T3 to T6 agree, and T7 has none. -/
theorem stepFollowsTheScheduleTable : Obligations.StepFollowsTheScheduleTable := by
  intro s
  refine ite_congr rfl (fun _ => rfl) fun _ => ite_congr rfl (fun _ => rfl) fun _ =>
    ite_congr rfl (fun _ => rfl) fun h0 => ite_congr rfl (fun _ => rfl) fun h1 =>
    ite_congr rfl (fun _ => rfl) fun h2 => ?_
  split_ifs with h3 h4 h5 h6
  · exact exec_eq_atT3 h3
  · exact exec_eq_atT4 h4
  · exact exec_eq_atT5 h5
  · exact exec_eq_atT6 h6
  · have h7 : s.sc = 7 := by simpa only [h0, h1, h2, h3, h4, h5, h6, false_or] using opcode_cases s.sc
    exact exec_of_not_controlReachable ((not_controlReachable_iff s).2 (.inr (.inr (.inr h7))))

end Sys2Proof.Machine

/-! PROOFS, family 40_fetch_decode.md. The guard, the micro-steps of the fetch, T3 of a memory-reference word, and the
seeding of a run. -/

namespace Sys2Proof.Machine

/-- Settles O10: the guard's two tests, in their order. -/
theorem guardStopsTheMachine : Obligations.GuardStopsTheMachine :=
  fun _ => ⟨fun hf => if_pos hf, fun hf h0 => (if_neg (not_not.2 hf)).trans (if_pos h0)⟩

/-- Settles O11: each micro-step is its row of the table; T1 at an unset cell is the read that faults. -/
theorem commonMicroSteps : Obligations.CommonMicroSteps := by
  intro s hr
  refine ⟨fun h => ?_, fun h v hv => ?_, fun h hv => ?_, fun h => ?_⟩
  · exact (MicroStep.fetchT0 h).step_eq hr
  · exact (MicroStep.fetchT1 h v hv).step_eq hr
  · exact (step_T1 hr h).trans (withRead_none hv)
  · exact (MicroStep.fetchT2 h).step_eq hr

/-- T3 through a pointer that is unset faults with the pointer's address (R127, log 4). -/
theorem step_T3_unset_pointer {s : State} (hr : Running s) (h : s.sc = 3) (hd : opcodeOf s.ir ≠ 7)
    (hi : ibitOf s.ir = 1) (hv : s.mem.read s.ar.toNat = none) : step s = .fault (.uninitializedRead s.ar) := by
  rw [step_from_T3 hr (by simp [h]), exec_memRef_T3 h hd, hi]
  exact withRead_none hv

/-- Settles O12: the two rows of T3 with D below 7, and the read that faults. -/
theorem indirectDereferenceAtT3 : Obligations.IndirectDereferenceAtT3 := by
  intro s hr h hd
  refine ⟨fun hi => ?_, fun hi v hv => ?_, fun hi hv => ?_⟩
  · exact (MicroStep.direct h hd hi).step_eq hr
  · exact (MicroStep.indirect h hd hi v hv).step_eq hr
  · exact step_T3_unset_pointer hr h hd hi hv

/-- A run of one micro-step is that micro-step, whatever it answers. -/
theorem runSteps_one (s : State) : runSteps 1 s = step s := by
  cases hs : step s with
  | next t => exact runSteps_succ hs 0
  | fault f => exact runSteps_succ_fault hs 0
  | refused r => exact runSteps_succ_refused hs 0

/-- Settles O13: the fetch leaves the machine at T3 with the word in IR, and the fourth micro-step starts there. -/
theorem stepRunsTheDecodedInstruction : Obligations.StepRunsTheDecodedInstruction := by
  refine ⟨fun s hr h => step_from_T3 hr h, fun s w hb hw => ?_⟩
  have hfetch := runSteps_fetch hb hw
  refine ⟨hfetch, ?_⟩
  rw [runSteps_add hfetch 1, runSteps_one]
  exact step_from_T3 (s := { fetched s w with sc := 3 }) hb.1 (by simp)

/-- Settles O53: `run` passes its four tests and then writes PC, S and the mark. -/
theorem runSeedsProgramCounterAndFlag : Obligations.RunSeedsProgramCounterAndFlag := by
  intro s t entry
  rw [startRun, Reg.transfer_eq_ofNat]
  split_ifs with hl hf hsc hentry
  · exact ⟨nofun, fun ⟨hl', _⟩ => by simp [hl] at hl'⟩
  · exact ⟨nofun, fun ⟨_, hf', _⟩ => absurd hf' hf⟩
  · exact ⟨nofun, fun ⟨_, _, hsc', _⟩ => absurd hsc' hsc⟩
  · exact ⟨fun h => ⟨by simpa using hl, not_not.1 hf, not_not.1 hsc, hentry, (Except.ok.inj h).symm⟩,
      fun ⟨_, _, _, _, ht⟩ => congrArg Except.ok ht.symm⟩
  · exact ⟨nofun, fun ⟨_, _, _, hentry', _⟩ => absurd hentry' hentry⟩

end Sys2Proof.Machine

/-! PROOFS, family 40_fetch_decode.md. The course of an instruction and of a run: SC counts the micro-steps of a word,
and a run that halts has performed T3 of HLT. -/

namespace Sys2Proof.Machine

/-! ### The last micro-step of a run of several -/

/-- A run that goes on for `n + 1` micro-steps has gone on for `n`, and then for one. -/
theorem runSteps_succ_next_last {n : Nat} {s t : State} (h : runSteps (n + 1) s = .next t) :
    ∃ u, runSteps n s = .next u ∧ step u = .next t := by
  induction n generalizing s with
  | zero =>
    obtain ⟨u, hs, hu⟩ := runSteps_succ_next h
    cases hu
    exact ⟨s, rfl, hs⟩
  | succ n ih =>
    obtain ⟨v, hs, hv⟩ := runSteps_succ_next h
    obtain ⟨u, hu, hlast⟩ := ih hv
    exact ⟨u, (runSteps_succ hs n).trans hu, hlast⟩

theorem runSteps_snoc {n : Nat} {s u t : State} (hu : runSteps n s = .next u) (hs : step u = .next t) :
    runSteps (n + 1) s = .next t := by
  rw [Nat.add_comm, runSteps_add hu 1, runSteps_one, hs]

theorem runSteps_next_of_le {k n : Nat} (hk : k ≤ n) {s t : State} (h : runSteps n s = .next t) :
    ∃ u, runSteps k s = .next u := by
  induction n, hk using Nat.le_induction generalizing t with
  | base => exact ⟨t, h⟩
  | succ n _ ih =>
    obtain ⟨u, hu, -⟩ := runSteps_succ_next_last h
    exact ih hu

/-- What every micro-step keeps holds along a run. -/
theorem machineInv_of_runSteps {n : Nat} {s t : State} (hs : MachineInv s) (h : runSteps n s = .next t) :
    MachineInv t := by
  induction n generalizing t with
  | zero => cases h; exact hs
  | succ n ih =>
    obtain ⟨u, hu, hlast⟩ := runSteps_succ_next_last h
    exact everyStepKeepsTheInvariant u t (ih hu) hlast

/-! ### SC counts the micro-steps of an instruction (40_fetch_decode.md R134, 70_reset_and_hazards.md R294) -/

/-- Only T1 writes IR (10_state.md R36). -/
theorem MicroStep.ir_eq {s t : State} (hm : MicroStep s t) (h : s.sc ≠ 1) : t.ir = s.ir := by
  cases hm
  case fetchT1 h1 _ _ => exact absurd h1 h
  case regRef => exact regRefOp_ir _ s
  all_goals rfl

/-- A micro-step that is not the last of its instruction advances SC (10_state.md R39). -/
theorem sc_toNat_of_step {s t : State} (hs : step s = .next t)
    (h : ¬ (3 ≤ s.sc.toNat ∧ s.sc.toNat + 1 = Schedule.microStepsOf s.ir)) : t.sc.toNat = s.sc.toNat + 1 := by
  obtain ⟨hsc, -, hlast⟩ := sequenceCounterRule s t hs
  have hne : t.sc ≠ 0 := fun h0 => h (hlast.1 h0)
  have hadd : t.sc = s.sc + 1 := hsc.resolve_right hne
  have hsucc : ∀ b : Bits3, b + 1 ≠ 0 → (b + 1).toNat = b.toNat + 1 := by decide
  rw [hadd] at hne ⊢
  exact hsucc s.sc hne

/-- Inside an instruction fetched from a boundary SC is the number of micro-steps made, and from T3 on IR holds its word. -/
theorem sc_and_ir_of_runSteps {s u : State} {w : Word} (hb : AtBoundary s) (hw : s.mem.read s.pc.toNat = some w)
    {k : Nat} (hk : k < Schedule.microStepsOf w) (hu : runSteps k s = .next u) :
    u.sc.toNat = k ∧ (3 ≤ k → u.ir = w) := by
  induction k generalizing u with
  | zero => cases hu; exact ⟨by rw [hb.2]; rfl, by simp⟩
  | succ k ih =>
    obtain ⟨v, hv, hs⟩ := runSteps_succ_next_last hu
    obtain ⟨hsc, hir⟩ := ih (by omega) hv
    refine ⟨?_, fun h3 => ?_⟩
    · rw [← hsc]
      refine sc_toNat_of_step hs fun ⟨h3, hlast⟩ => ?_
      rw [hsc] at h3 hlast
      rw [hir h3] at hlast
      omega
    · rcases Nat.eq_or_lt_of_le h3 with h3 | h3
      · rw [← h3, runSteps_fetch hb hw] at hu
        cases hu
        rfl
      · have hne : v.sc ≠ 1 := fun h1 => by simp [h1] at hsc; omega
        rw [(microStep_of_step hs).ir_eq hne, hir (by omega)]

theorem four_le_microStepsOf (w : Word) : 4 ≤ Schedule.microStepsOf w := by
  unfold Schedule.microStepsOf
  split_ifs <;> decide

/-- Settles O52: SC counts up to the last micro-step of the word, and that one clears it. -/
theorem instructionTakesItsMicroSteps : Obligations.InstructionTakesItsMicroSteps := by
  rintro s w hb hw ⟨t, ht⟩
  refine ⟨⟨t, ht, ?_⟩, fun k _ hk => ?_⟩
  · obtain ⟨m, hm⟩ := Nat.exists_eq_add_of_le' (four_le_microStepsOf w)
    rw [hm] at ht
    obtain ⟨u, hu, hs⟩ := runSteps_succ_next_last ht
    obtain ⟨hsc, hir⟩ := sc_and_ir_of_runSteps hb hw (by omega) hu
    obtain ⟨-, -, hlast⟩ := sequenceCounterRule u t hs
    exact hlast.2 ⟨by omega, by rw [hir (by omega), hsc, hm]⟩
  · obtain ⟨u, hu⟩ := runSteps_next_of_le (Nat.le_of_lt hk) ht
    exact ⟨u, hu, (sc_and_ir_of_runSteps hb hw hk hu).1⟩

/-! ### The end of a run (40_fetch_decode.md R132, R133) -/

/-- A running machine that comes to the successful end has made the micro-step that clears S. -/
theorem exists_last_step_of_halted {n : Nat} {s t : State} (hr : Running s) (h : runFor n s = .halted t) :
    ∃ k u, k < n ∧ runSteps k s = .next u ∧ step u = .next t ∧ t.runFlag = 0 := by
  have hne : s.runFlag ≠ 0 := (bit_ne_zero_iff _).2 hr.1
  rw [runFor] at h
  induction n generalizing s with
  | zero => exact absurd (runLoop_zero_eq_halted_iff.1 h).1 hne
  | succ n ih =>
    obtain ⟨h0, -⟩ | ⟨-, v, hs, hrun⟩ := runLoop_succ_eq_halted_iff.1 h
    · exact absurd h0 hne
    · by_cases h0 : v.runFlag = 0
      · obtain rfl : v = t := by
          cases n <;> simpa [runLoop, h0] using hrun
        exact ⟨0, s, by omega, rfl, hs, h0⟩
      · have hrv : Running v := ⟨(bit_ne_zero_iff _).1 h0, (microStep_of_step hs).fault_eq.trans hr.2⟩
        obtain ⟨k, u, hk, hu, hlast⟩ := ih hrv hrun h0
        exact ⟨k + 1, u, by omega, (runSteps_succ hs k).trans hu, hlast⟩

/-- The rows that lead to T1, T2 and T3 are those of the fetch (R124 to R126). -/
theorem MicroStep.eq_fetchT0 {s t : State} (hm : MicroStep s t) (h : t.sc = 1) :
    s.sc = 0 ∧ t = { s with ar := s.pc, sc := 1 } := by
  cases hm
  case fetchT0 h0 => exact ⟨h0, rfl⟩
  all_goals simp at h

theorem MicroStep.eq_fetchT1 {s t : State} (hm : MicroStep s t) (h : t.sc = 2) :
    s.sc = 1 ∧ ∃ v, s.mem.read s.ar.toNat = some v ∧ t = { s with ir := v, pc := s.pc + 1, sc := 2 } := by
  cases hm
  case fetchT1 h1 v hv => exact ⟨h1, v, hv, rfl⟩
  all_goals simp at h

theorem MicroStep.eq_fetchT2 {s t : State} (hm : MicroStep s t) (h : t.sc = 3) :
    s.sc = 2 ∧ t = { s with ar := addrOf s.ir, indFlag := ibitOf s.ir, sc := 3 } := by
  cases hm
  case fetchT2 h2 => exact ⟨h2, rfl⟩
  all_goals simp at h

/-- A run from SC = 0 that stands at another SC has made a last micro-step. -/
theorem exists_pred_of_sc_ne_zero {k : Nat} {s u : State} (h0 : s.sc = 0) (h : runSteps k s = .next u)
    (hne : u.sc ≠ 0) : ∃ j v, k = j + 1 ∧ runSteps j s = .next v ∧ Running v ∧ MicroStep v u := by
  cases k with
  | zero => cases h; exact absurd h0 hne
  | succ j =>
    obtain ⟨v, hv, hs⟩ := runSteps_succ_next_last h
    obtain ⟨hr, hm⟩ := step_eq_next_iff.1 hs
    exact ⟨j, v, rfl, hv, hr, hm⟩

/-- A run from SC = 0 that stands at T3 has just fetched the word in IR from a boundary (R134). -/
theorem exists_boundary_of_T3 {k : Nat} {s u : State} (h0 : s.sc = 0) (h : runSteps k s = .next u) (h3 : u.sc = 3) :
    ∃ j b, k = j + 3 ∧ runSteps j s = .next b ∧ AtBoundary b ∧ b.mem.read b.pc.toNat = some u.ir
      ∧ u = { fetched b u.ir with sc := 3 } := by
  obtain ⟨k2, u2, rfl, h2, -, hm2⟩ := exists_pred_of_sc_ne_zero h0 h (by simp [h3])
  obtain ⟨hsc2, rfl⟩ := hm2.eq_fetchT2 h3
  obtain ⟨k1, u1, rfl, h1, -, hm1⟩ := exists_pred_of_sc_ne_zero h0 h2 (by simp [hsc2])
  obtain ⟨hsc1, w, hw, rfl⟩ := hm1.eq_fetchT1 hsc2
  obtain ⟨j, b, rfl, hj, hr, hm0⟩ := exists_pred_of_sc_ne_zero h0 h1 (by simp [hsc1])
  obtain ⟨hsc0, rfl⟩ := hm0.eq_fetchT0 hsc1
  exact ⟨j, b, rfl, hj, ⟨hr, hsc0⟩, hw, rfl⟩

/-- SC after the fetch is all that T3 of HLT puts back (R172). -/
theorem fetched_retire {b : State} (h0 : b.sc = 0) (w : Word) : { fetched b w with sc := 0 } = fetched b w := by
  rw [← h0]
  rfl

/-- Settles O54: S is cleared by T3 of HLT alone, and T3 is reached from a boundary through the fetch alone. -/
theorem runEndsOnlyThroughHalt : Obligations.RunEndsOnlyThroughHalt := by
  intro n s t hinv hr h
  obtain ⟨k, u, hk, hu, hs, h0⟩ := exists_last_step_of_halted hr h
  obtain ⟨hfault, -, -, hhlt, hend⟩ := onlyHaltClearsTheRunFlag u t hs
  obtain ⟨h3, hir⟩ := hhlt.1 h0
  obtain ⟨-, -, -, haddr, -⟩ := machineInv_of_runSteps hinv hu
  have har : u.ar = addrOf u.ir := haddr.2 h3
  have ht : t = { u with runFlag := 0, sc := 0 } := hend h0
  refine ⟨h0, by rw [ht], by rw [ht]; exact hir, ?_, ?_, ⟨k, u, hk, hu, h3, hir, hs, ht, runSteps_snoc hu hs⟩,
    fun hsc => ?_⟩
  · rw [ht]; exact har.trans (by rw [hir]; decide)
  · rw [hfault]; exact (running_of_step_next hs).2
  · obtain ⟨j, b, rfl, hj, hb, hw, hub⟩ := exists_boundary_of_T3 hsc hu h3
    rw [hir] at hw hub
    refine ⟨j, b, by omega, hj, hb, hw, ?_⟩
    rw [ht, hub]
    exact congrArg (fun v : State => { v with runFlag := 0 }) (fetched_retire hb.2 0x7001)

end Sys2Proof.Machine

/-! PROOFS, family 41_memory_reference.md. The micro-steps T4 to T6 of each memory-reference instruction, in every state
whose SC selects them. -/

namespace Sys2Proof.Machine

/-! ### The store at AR (20_memory.md R63) -/

/-- What a store of the control unit leaves in memory: the word at its address, every other cell as before. -/
theorem memWrite_spec (m : Memory) (a : Addr) (v : Word) :
    (memWrite m a v).read a.toNat = some v ∧ ∀ b, b ≠ a.toNat → (memWrite m a v).read b = m.read b :=
  ⟨Memory.read_write_same m a.toNat v, fun _ hb => Memory.read_write_other m v hb⟩

/-- The return address BSA stores is PC zero-extended (R146). -/
theorem memWrite_returnAddr_spec (m : Memory) (a pc : Addr) :
    (memWrite m a (pc.setWidth 16)).read a.toNat = some (BitVec.ofNat 16 pc.toNat)
      ∧ ∀ b, b ≠ a.toNat → (memWrite m a (pc.setWidth 16)).read b = m.read b := by
  rw [BitVec.ofNat_toNat]
  exact memWrite_spec m a _

/-! ### The operand read (41_memory_reference.md R141 to R143, R147) -/

theorem loadOperand_some {s : State} {v : Word} (h : s.sc = 4) (hv : s.mem.read s.ar.toNat = some v) :
    loadOperand .fault s = .next { s with dr := v, sc := 5 } := by
  rw [loadOperand, withRead_some hv]
  simp [State.advanceT, Reg.increment_eq_add_one, h]

theorem loadOperand_none {s : State} (hv : s.mem.read s.ar.toNat = none) :
    loadOperand .fault s = .fault (.uninitializedRead s.ar) :=
  withRead_none hv

section Rows

variable {s : State} (mode : AddrMode) (addr : Addr)

theorem execAnd_T4 (h : s.sc = 4) : execAnd mode addr s = loadOperand .fault s := by
  simp [execAnd, h, Config.unsetPolicy]

theorem execAdd_T4 (h : s.sc = 4) : execAdd mode addr s = loadOperand .fault s := by
  simp [execAdd, h, Config.unsetPolicy]

theorem execLda_T4 (h : s.sc = 4) : execLda mode addr s = loadOperand .fault s := by
  simp [execLda, h, Config.unsetPolicy]

theorem execIsz_T4 (h : s.sc = 4) : execIsz mode addr s = loadOperand .fault s := by
  simp [execIsz, h, Config.unsetPolicy]

/-! ### The other rows of T4 to T6 (R141 to R147) -/

theorem execSta_T4 (h : s.sc = 4) : execSta mode addr s = .next (staT4 s) := by simp [execSta, h]

theorem execBun_T4 (h : s.sc = 4) : execBun mode addr s = .next (bunT4 s) := by simp [execBun, h]

theorem execBsa_T4 (h : s.sc = 4) : execBsa mode addr s = .next (bsaT4 s) := by simp [execBsa, h]

theorem execAnd_T5 (h : s.sc = 5) : execAnd mode addr s = .next (andT5 s) := by simp [execAnd, h]

theorem execAdd_T5 (h : s.sc = 5) : execAdd mode addr s = .next (addT5 s) := by simp [execAdd, h]

theorem execLda_T5 (h : s.sc = 5) : execLda mode addr s = .next (ldaT5 s) := by simp [execLda, h]

theorem execBsa_T5 (h : s.sc = 5) : execBsa mode addr s = .next (bsaT5 s) := by simp [execBsa, h]

theorem execIsz_T5 (h : s.sc = 5) : execIsz mode addr s = .next (iszT5 s) := by simp [execIsz, h]

theorem execIsz_T6 (h : s.sc = 6) : execIsz mode addr s = .next (iszT6 s) := by simp [execIsz, h]

end Rows

/-- Settles O21: T4 is the operand read for all three, T5 the result of each. -/
theorem loadAndArithmeticMicroSteps : Obligations.LoadAndArithmeticMicroSteps := by
  intro mode addr s
  refine ⟨fun h v hv => ?_, fun h hv => ?_, fun h => ?_⟩
  · have hload := loadOperand_some h hv
    exact ⟨(execAnd_T4 mode addr h).trans hload, (execAdd_T4 mode addr h).trans hload,
      (execLda_T4 mode addr h).trans hload⟩
  · have hload := loadOperand_none hv
    exact ⟨(execAnd_T4 mode addr h).trans hload, (execAdd_T4 mode addr h).trans hload,
      (execLda_T4 mode addr h).trans hload⟩
  · exact ⟨execAnd_T5 mode addr h, execAdd_T5 mode addr h, execLda_T5 mode addr h⟩

/-- Settles O22: each has one row at T4; STA's is a store, which reads nothing. -/
theorem storeAndBranchMicroSteps : Obligations.StoreAndBranchMicroSteps :=
  fun mode addr s h => ⟨execBun_T4 mode addr h, memWrite s.mem s.ar s.ac, execSta_T4 mode addr h,
    memWrite_spec s.mem s.ar s.ac⟩

/-- Settles O23: T4 stores at the AR it increments, T5 branches to the incremented one. -/
theorem branchAndSaveMicroSteps : Obligations.BranchAndSaveMicroSteps := by
  intro mode addr s
  refine ⟨fun h => ⟨memWrite s.mem s.ar (s.pc.setWidth 16), ?_, memWrite_returnAddr_spec s.mem s.ar s.pc⟩,
    fun h => execBsa_T5 mode addr h⟩
  exact (execBsa_T4 mode addr h).trans (congrArg _ (bsaT4_eq h))

/-- Settles O24: the operand read, the increment, and the store with the skip. -/
theorem incrementAndSkipMicroSteps : Obligations.IncrementAndSkipMicroSteps := by
  intro mode addr s
  refine ⟨fun h v hv => ?_, fun h hv => ?_, fun h => ?_,
    fun h => ⟨memWrite s.mem s.ar s.dr, ?_, memWrite_spec s.mem s.ar s.dr⟩⟩
  · exact (execIsz_T4 mode addr h).trans (loadOperand_some h hv)
  · exact (execIsz_T4 mode addr h).trans (loadOperand_none hv)
  · exact (execIsz_T5 mode addr h).trans (congrArg _ (iszT5_eq h))
  · exact (execIsz_T6 mode addr h).trans (congrArg _ (iszT6_eq s))

end Sys2Proof.Machine

/-! PROOFS, family 41_memory_reference.md. The memory-reference instructions from boundary to boundary, and the call with
its return. -/

namespace Sys2Proof.Machine

/-! ### From the boundary to T4 and T5 (41_memory_reference.md R140, R148) -/

/-- A run that ends by clearing SC ends in a state that is written out without its SC, which is 0. -/
theorem runSteps_of_clear_sc {n : Nat} {s t : State} (h : runSteps n s = .next { t with sc := 0 }) (h0 : t.sc = 0) :
    runSteps n s = .next t := by
  rwa [← h0] at h

theorem runSteps_snoc_of_clear_sc {n : Nat} {s u t : State} (hu : runSteps n s = .next u) (hr : Running u)
    (hm : MicroStep u { t with sc := 0 }) (h0 : t.sc = 0) : runSteps (n + 1) s = .next t :=
  runSteps_of_clear_sc (runSteps_snoc hu (hm.step_eq hr)) h0

/-- The incremented word is 0 exactly when the word was the last one (R147). -/
theorem add_one_eq_zero_iff (v : Word) : v + 1 = 0 ↔ v = 0xFFFF := by
  bv_omega

section Boundary

variable {s : State} {i : Instr} {d : Bits3} {mode : AddrMode} {addr ea : Addr} {v : Word}

theorem opcodeOf_of_encodeMemRef (hi : encode i = encodeMemRef d mode addr) : opcodeOf (encode i) = d := by
  rw [hi]
  exact opcodeOf_joinWord _ _ _

/-- Four micro-steps fetch the word and leave the effective address in AR. -/
theorem AboutToRun.runSteps_to_T4 (h : AboutToRun s i) (hi : encode i = encodeMemRef d mode addr) (hd : d ≠ 7)
    (hea : effectiveAddr .fault s.mem mode addr = .ok ea) :
    runSteps 4 s = .next { fetched s (encode i) with ar := ea, sc := 4 } := by
  obtain ⟨hb, -, hw⟩ := h
  refine Machine.runSteps_to_T4 hb hw (by rwa [opcodeOf_of_encodeMemRef hi]) ?_
  simpa [hi, encodeMemRef] using hea

/-- The fifth micro-step of AND, ADD, LDA and ISZ reads the operand into DR. -/
theorem AboutToRun.runSteps_to_T5 (h : AboutToRun s i) (hi : encode i = encodeMemRef d mode addr)
    (hd : d = 0 ∨ d = 1 ∨ d = 2 ∨ d = 6) (hea : effectiveAddr .fault s.mem mode addr = .ok ea)
    (hv : s.mem.read ea.toNat = some v) :
    runSteps 5 s = .next { fetched s (encode i) with ar := ea, dr := v, sc := 5 } := by
  have hne : d ≠ 7 := by rcases hd with rfl | rfl | rfl | rfl <;> decide
  exact runSteps_snoc (h.runSteps_to_T4 hi hne hea)
    (MicroStep.step_eq h.1.1 (.load rfl (by rwa [← opcodeOf_of_encodeMemRef hi] at hd) v hv))

/-! ### The instructions one by one (R141 to R147) -/

theorem runSteps_bun (h : AboutToRun s (.bun mode addr)) (hea : effectiveAddr .fault s.mem mode addr = .ok ea) :
    runSteps 5 s = .next { fetched s (encode (.bun mode addr)) with ar := ea, pc := ea } :=
  runSteps_snoc_of_clear_sc (h.runSteps_to_T4 rfl (by decide) hea) h.1.1 (.bun rfl (opcodeOf_of_encodeMemRef rfl)) h.1.2

/-- BSA stores at the effective address and branches to the word after it (R146). -/
theorem runSteps_bsa (h : AboutToRun s (.bsa mode addr)) (hea : effectiveAddr .fault s.mem mode addr = .ok ea) :
    runSteps 6 s = .next { fetched s (encode (.bsa mode addr)) with
      ar := ea + 1, pc := ea + 1, mem := memWrite s.mem ea ((s.pc + 1).setWidth 16) } := by
  have hd : opcodeOf (encode (.bsa mode addr)) = 5 := opcodeOf_of_encodeMemRef rfl
  have hT5 := runSteps_snoc (h.runSteps_to_T4 rfl (by decide) hea) (MicroStep.step_eq h.1.1 (.bsaStore rfl hd))
  exact runSteps_snoc_of_clear_sc hT5 h.1.1 (.bsaJump rfl hd) h.1.2

/-- ISZ skips exactly when it stores 0 (R147, R288). -/
theorem runSteps_isz (h : AboutToRun s (.isz mode addr)) (hea : effectiveAddr .fault s.mem mode addr = .ok ea)
    (hv : s.mem.read ea.toNat = some v) :
    runSteps 7 s = .next { fetched s (encode (.isz mode addr)) with
      ar := ea, dr := v + 1, pc := if v = 0xFFFF then s.pc + 2 else s.pc + 1, mem := memWrite s.mem ea (v + 1) } := by
  have hd : opcodeOf (encode (.isz mode addr)) = 6 := opcodeOf_of_encodeMemRef rfl
  have hT6 := runSteps_snoc (h.runSteps_to_T5 rfl (by decide) hea hv) (MicroStep.step_eq h.1.1 (.iszIncrement rfl hd))
  have hpc : (if v = 0xFFFF then s.pc + 2 else s.pc + 1) = if v + 1 = 0 then s.pc + 1 + 1 else s.pc + 1 :=
    if_congr (add_one_eq_zero_iff v).symm (BitVec.add_assoc s.pc 1 1).symm rfl
  rw [hpc]
  exact runSteps_snoc_of_clear_sc hT6 h.1.1 (.iszStore rfl hd) h.1.2

end Boundary

/-- Settles O25: the operand is in DR after five micro-steps, and the sixth is the result of each. -/
theorem loadAndArithmeticInstructions : Obligations.LoadAndArithmeticInstructions := by
  intro s mode addr ea v hea hv
  refine ⟨fun h => ?_, fun h => ?_, fun h => ?_⟩
  · have hT5 := h.runSteps_to_T5 rfl (by decide) hea hv
    exact runSteps_snoc_of_clear_sc hT5 h.1.1 (.and rfl (opcodeOf_of_encodeMemRef rfl)) h.1.2
  · have hT5 := h.runSteps_to_T5 rfl (by decide) hea hv
    exact runSteps_snoc_of_clear_sc hT5 h.1.1 (.add rfl (opcodeOf_of_encodeMemRef rfl)) h.1.2
  · have hT5 := h.runSteps_to_T5 rfl (by decide) hea hv
    exact runSteps_snoc_of_clear_sc hT5 h.1.1 (.lda rfl (opcodeOf_of_encodeMemRef rfl)) h.1.2

/-- Settles O26: both runs end at the fifth micro-step, STA's with its store. -/
theorem storeAndBranchInstructions : Obligations.StoreAndBranchInstructions := by
  intro s mode addr ea hea
  refine ⟨fun h => ⟨memWrite s.mem ea s.ac, ?_, memWrite_spec s.mem ea s.ac⟩, fun h => runSteps_bun h hea⟩
  exact runSteps_of_clear_sc (runSteps_sta h hea) h.1.2

/-- Settles O27 by the run of BSA and its store. -/
theorem branchAndSaveInstruction : Obligations.BranchAndSaveInstruction :=
  fun s _ _ ea h hea => ⟨_, runSteps_bsa h hea, memWrite_returnAddr_spec s.mem ea (s.pc + 1)⟩

/-- Settles O28 by the run of ISZ and its store. -/
theorem incrementAndSkipInstruction : Obligations.IncrementAndSkipInstruction :=
  fun s _ _ ea v h hea hv => ⟨_, runSteps_isz h hea hv, memWrite_spec s.mem ea (v + 1)⟩

/-! ### The call and its return (R145, R146) -/

@[simp] theorem addrOf_setWidth (a : Addr) : addrOf (a.setWidth 16) = a := by
  rw [addrOf, ← BitVec.setWidth_eq_extractLsb' (by decide), BitVec.setWidth_setWidth_of_le a (by decide),
    BitVec.setWidth_eq]

/-- The pointer BSA leaves is the return address itself: its low 12 bits are all of PC. -/
theorem effectiveAddr_returnAddr {m : Memory} {sub pc : Addr}
    (h : m.read sub.toNat = some (BitVec.ofNat 16 pc.toNat)) : effectiveAddr .fault m .indirect sub = .ok pc := by
  simp [effectiveAddr, memRead_fault_some h]

/-- The word after an address is another cell, also across the top of memory. -/
theorem add_one_toNat_ne (a : Addr) : (a + 1).toNat ≠ a.toNat := by
  bv_omega

/-- Settles O29: BSA's store spares the word after SUB, so BUN SUB I runs there and finds the return address in SUB. -/
theorem subroutineReturnsToItsCaller : Obligations.SubroutineReturnsToItsCaller := by
  intro s mode addr sub h hsub hret
  have hcall := runSteps_bsa h hsub
  obtain ⟨hptr, hframe⟩ := memWrite_returnAddr_spec s.mem sub (s.pc + 1)
  generalize hu : { fetched s (encode (.bsa mode addr)) with
    ar := sub + 1, pc := sub + 1, mem := memWrite s.mem sub ((s.pc + 1).setWidth 16) } = u at hcall
  have hrun : AboutToRun u (.bun .indirect sub) := by
    subst hu
    exact ⟨h.1, rfl, (hframe _ (add_one_toNat_ne sub)).trans hret⟩
  have hreturn := runSteps_bun hrun (effectiveAddr_returnAddr (pc := s.pc + 1) (hu ▸ hptr))
  refine ⟨_, (runSteps_add hcall 5).trans hreturn, hrun.1, rfl, ?_⟩
  subst hu
  exact ⟨rfl, rfl, rfl, hptr, hframe⟩

end Sys2Proof.Machine

/-! PROOFS, family 42_register_reference.md. The register-reference instructions at T3: each operation as an equation of
states, the select bits below the highest, and the laws of the circulates. -/

namespace Sys2Proof.Machine

/-! ### The highest select bit decides (30_encoding.md R95, 42_register_reference.md R173) -/

theorem decode_joinWord_regRef (sel : SelField) : decode (joinWord 0 7 sel) = decodeRegRef sel := by
  rw [decode_regRef (opcodeOf_joinWord _ _ _) (ibitOf_joinWord _ _ _), addrOf_joinWord]

/-- The ignored bits of a register-reference instruction change nothing that it does. -/
theorem exec_regRefAt_ignores_low {k : Nat} (hk : k < 12) (low low' : SelField) (s : State) :
    exec (regRefAt k low) s = exec (regRefAt k low') s := by
  interval_cases k <;> rfl

theorem two_pow_highest {k : Nat} (hk : k < 12) : (BitVec.ofNat 12 (2 ^ k)).toNat / 2 ^ k = 1 := by
  rw [BitVec.toNat_ofNat, Nat.mod_eq_of_lt (Nat.pow_lt_pow_right (by decide) hk), Nat.div_self (Nat.two_pow_pos k)]

/-- Settles O5: both words decode to the instruction of select bit `k`, with different ignored bits. -/
theorem highestSelectBitDecides : Obligations.HighestSelectBitDecides := by
  intro k sel hk h s
  rw [decode_joinWord_regRef, decode_joinWord_regRef, decodeRegRef_of_highest h,
    decodeRegRef_of_highest (two_pow_highest hk)]
  exact exec_regRefAt_ignores_low hk _ _ s

/-! ### The circulates in arithmetic (R165, R166) -/

/-- CIR's word: E becomes the top bit and AC is halved. -/
theorem Reg.shiftRight_word (ac : Word) (e : Bit) :
    (Reg.shiftRight ac e).1 = BitVec.ofNat 16 (e.toNat * 32768 + ac.toNat / 2) := by
  have happend : (e ++ ac).toNat = e.toNat * 65536 + ac.toNat := by
    rw [BitVec.toNat_append, ← Nat.shiftLeft_add_eq_or_of_lt ac.isLt, Nat.shiftLeft_eq]
  apply BitVec.eq_of_toNat_eq
  rw [Reg.shiftRight, BitVec.toNat_setWidth, BitVec.toNat_ushiftRight, happend, BitVec.toNat_ofNat,
    Nat.shiftRight_eq_div_pow]
  omega

/-- CIL's word: AC is doubled and E becomes its bit 0. -/
theorem Reg.shiftLeft_word (ac : Word) (e : Bit) :
    (Reg.shiftLeft ac e).1 = BitVec.ofNat 16 (ac.toNat * 2 % 65536 + e.toNat) := by
  have happend : (ac ++ e).toNat = ac.toNat * 2 + e.toNat := by
    rw [BitVec.toNat_append, ← Nat.shiftLeft_add_eq_or_of_lt e.isLt, Nat.shiftLeft_eq]
  apply BitVec.eq_of_toNat_eq
  rw [Reg.shiftLeft, BitVec.toNat_setWidth, happend, BitVec.toNat_ofNat]
  omega

theorem extractLsb'_bit_zero (ac : Word) : ac.extractLsb' 0 1 = BitVec.ofNat 1 (ac.toNat % 2) := by
  apply BitVec.eq_of_toNat_eq
  simp [BitVec.extractLsb'_toNat]

theorem extractLsb'_bit_fifteen (ac : Word) : ac.extractLsb' 15 1 = BitVec.ofNat 1 (ac.toNat / 32768) := by
  apply BitVec.eq_of_toNat_eq
  simp [BitVec.extractLsb'_toNat, Nat.shiftRight_eq_div_pow]

/-! ### The operations as equations of states (R161 to R172) -/

theorem cmaOp_eq (s : State) : cmaOp s = { s with ac := 0xFFFF - s.ac } :=
  congrArg (fun v => { s with ac := v }) (BitVec.allOnes_sub_eq_not s.ac).symm

theorem cmeOp_eq (s : State) : cmeOp s = { s with e := 1 - s.e } :=
  congrArg (fun b => { s with e := b }) (BitVec.allOnes_sub_eq_not s.e).symm

theorem cirOp_eq (s : State) :
    cirOp s = { s with
      ac := BitVec.ofNat 16 (s.e.toNat * 32768 + s.ac.toNat / 2), e := s.ac.extractLsb' 0 1 } := by
  rw [cirOp, Reg.shiftRight_word, shiftRight_out_eq_bit]

theorem cilOp_eq (s : State) :
    cilOp s = { s with
      ac := BitVec.ofNat 16 (s.ac.toNat * 2 % 65536 + s.e.toNat), e := s.ac.extractLsb' 15 1 } := by
  rw [cilOp, Reg.shiftLeft_word, shiftLeft_out_eq_bit]

theorem incOp_eq (s : State) : incOp s = { s with ac := s.ac + 1 } := by
  rw [incOp, Reg.increment_eq_add_one]

/-- A skip whose test `c` decides `p` (R288). -/
theorem State.skipIf_eq_of_iff (s : State) {c : Bool} {p : Prop} [Decidable p] (h : c = true ↔ p) :
    s.skipIf c = { s with pc := if p then s.pc + 1 else s.pc } :=
  congrArg (fun a => { s with pc := a }) (s.skipIf_pc_of_iff h)

theorem isZeroWord_iff_toNat (w : Word) : isZeroWord w = true ↔ w.toNat = 0 :=
  (isZeroWord_iff w).trans BitVec.toNat_eq

/-! ### The instructions at T3 (R160) -/

/-- At T3 a register-reference instruction performs its operation and clears SC. -/
theorem regRefStep_T3 {op : State → State} {s t : State} (h : s.sc = 3) (ht : op s = t) :
    regRefStep op s = .next { t with sc := 0 } :=
  ht ▸ if_pos h

/-- Settles O31: the four operations, which are library operations on the register. -/
theorem clearAndComplementEffects : Obligations.ClearAndComplementEffects := fun _ s h =>
  ⟨regRefStep_T3 (op := claOp) h rfl, regRefStep_T3 (op := cleOp) h rfl,
    ⟨~~~s.ac, regRefStep_T3 (op := cmaOp) h rfl, BitVec.toNat_not⟩,
    ⟨~~~s.e, regRefStep_T3 (op := cmeOp) h rfl, BitVec.toNat_not⟩⟩

/-- Settles O32: the word of each shift, and the bit it moves out. -/
theorem circulateEffects : Obligations.CirculateEffects := by
  intro low s h
  rw [← extractLsb'_bit_zero, ← extractLsb'_bit_fifteen]
  exact ⟨regRefStep_T3 h (cirOp_eq s), regRefStep_T3 h (cilOp_eq s)⟩

/-- Settles O34: INC adds 1, and the complement plus 1 is the negative. -/
theorem incrementLeavesCarryAlone : Obligations.IncrementLeavesCarryAlone := by
  refine ⟨fun low s h => regRefStep_T3 (op := incOp) h rfl, fun s => ?_⟩
  have hneg : ~~~s.ac + 1 = BitVec.ofNat 16 (65536 - s.ac.toNat) :=
    (BitVec.neg_eq_not_add s.ac).symm.trans (ofNat_two_pow_sub_toNat s.ac).symm
  rw [incOp_eq, ← hneg]
  rfl

/-- Settles O35: each skip by what its test decides; HLT and 0x7000 by their operations. -/
theorem skipHaltAndEmptySelectEffects : Obligations.SkipHaltAndEmptySelectEffects := by
  intro low s h
  refine ⟨?_, ?_, ?_, ?_, regRefStep_T3 (op := hltOp) h rfl, regRefStep_T3 (op := rriNoneOp) h rfl⟩
  · exact regRefStep_T3 (op := spaOp) h (s.skipIf_eq_of_iff (isPositive_iff s.ac))
  · exact regRefStep_T3 (op := snaOp) h (s.skipIf_eq_of_iff (isNegative_iff s.ac))
  · exact regRefStep_T3 (op := szaOp) h (s.skipIf_eq_of_iff (isZeroWord_iff_toNat s.ac))
  · exact regRefStep_T3 (op := szeOp) h (s.skipIf_eq_of_iff (isZeroBit_iff s.e))

end Sys2Proof.Machine

/-! PROOFS, family 42_register_reference.md. The laws of the circulates: CIR rotates the seventeen bits of E and AC, and
CIL undoes it. -/

namespace Sys2Proof.Machine

/-! ### Rotating a word by its whole width -/

section Rotation

variable {w : Nat}

/-- A rotation by one place to the right takes each bit from the place above it, the top bit from bit 0. -/
theorem getLsbD_rotateRight_one (x : BitVec w) {i : Nat} (hi : i < w) :
    (x.rotateRight 1).getLsbD i = x.getLsbD ((i + 1) % w) := by
  rcases Nat.lt_or_ge (i + 1) w with h | h
  · have hone : 1 % w = 1 := Nat.mod_eq_of_lt (Nat.lt_of_le_of_lt (Nat.succ_pos i) h)
    rw [BitVec.getLsbD_rotateRight, hone, decide_eq_true (by omega), cond_true, Nat.mod_eq_of_lt h, Nat.add_comm]
  · obtain rfl : w = i + 1 := by omega
    cases i <;> simp

theorem getLsbD_rotateRight_one_iterate (n : Nat) (x : BitVec w) {i : Nat} (hi : i < w) :
    ((BitVec.rotateRight · 1)^[n] x).getLsbD i = x.getLsbD ((i + n) % w) := by
  induction n generalizing i with
  | zero => rw [Nat.add_zero, Nat.mod_eq_of_lt hi]; rfl
  | succ n ih =>
    rw [Function.iterate_succ_apply', getLsbD_rotateRight_one _ hi, ih (Nat.mod_lt _ (Nat.zero_lt_of_lt hi)),
      Nat.mod_add_mod, Nat.add_right_comm, Nat.add_assoc]

theorem rotateRight_one_iterate_width (x : BitVec w) : (BitVec.rotateRight · 1)^[w] x = x :=
  BitVec.eq_of_getLsbD_eq fun i hi => by
    rw [getLsbD_rotateRight_one_iterate w x hi, Nat.add_mod_right, Nat.mod_eq_of_lt hi]

end Rotation

/-! ### CIR as a rotation of E and AC (R165, R166) -/

/-- The state with E and AC replaced by the top bit and the low sixteen bits of `x`. -/
def State.withCarryAc (s : State) (x : BitVec 17) : State :=
  { s with e := x.extractLsb' 16 1, ac := x.extractLsb' 0 16 }

theorem State.withCarryAc_self (s : State) : s.withCarryAc (s.e ++ s.ac) = s := by
  rw [State.withCarryAc, BitVec.extractLsb'_append_eq_left, BitVec.extractLsb'_append_eq_right]

/-- CIR is the rotation of those seventeen bits by one place to the right. -/
theorem semiconj_withCarryAc_cirOp (s : State) : Function.Semiconj s.withCarryAc (BitVec.rotateRight · 1) cirOp := by
  intro x
  have hac : (x.rotateRight 1).extractLsb' 0 16 = (Reg.shiftRight (x.extractLsb' 0 16) (x.extractLsb' 16 1)).1 := by
    refine BitVec.eq_of_getLsbD_eq fun i hi => ?_
    rw [BitVec.getLsbD_extractLsb', getLsbD_rotateRight_one x (by omega)]
    rcases Nat.lt_or_ge (i + 1) 16 with h | h
    · rw [Reg.shiftRight_inner_bit _ _ h]
      simp [hi, h, Nat.mod_eq_of_lt (Nat.lt_succ_of_lt h)]
    · obtain rfl : i = 16 - 1 := by omega
      rw [Reg.shiftRight_top_bit _ _ (by decide)]
      simp
  have he : (x.rotateRight 1).extractLsb' 16 1 = (Reg.shiftRight (x.extractLsb' 0 16) (x.extractLsb' 16 1)).2 := by
    refine bit_ext ?_
    rw [Reg.shiftRight_out_bit, BitVec.getLsbD_extractLsb', getLsbD_rotateRight_one x (by decide)]
    simp
  simp only [State.withCarryAc, cirOp, hac, he]

theorem cirOp_iterate_seventeen (s : State) : cirOp^[17] s = s := by
  have h := (semiconj_withCarryAc_cirOp s).iterate_right 17 (s.e ++ s.ac)
  rwa [rotateRight_one_iterate_width, State.withCarryAc_self, eq_comm] at h

theorem cilOp_leftInverse_cirOp : Function.LeftInverse cilOp cirOp := by
  intro s
  have h := Reg.shiftLeft_shiftRight s.ac s.e (by decide)
  rw [cilOp, cirOp, h]

theorem cirOp_leftInverse_cilOp : Function.LeftInverse cirOp cilOp := by
  intro s
  have h := Reg.shiftRight_shiftLeft s.ac s.e (by decide)
  rw [cirOp, cilOp, h]

/-- Seventeen CIL undo seventeen CIR, which are the identity. -/
theorem cilOp_iterate_seventeen (s : State) : cilOp^[17] s = s := by
  have h := cilOp_leftInverse_cirOp.iterate 17 s
  rwa [cirOp_iterate_seventeen] at h

/-- Settles O33: the inverse laws of the shifts, the rotation by seventeen places, and the double complement. -/
theorem circulatesInvertAndRepeat : Obligations.CirculatesInvertAndRepeat := by
  intro s
  refine ⟨cilOp_leftInverse_cirOp s, cirOp_leftInverse_cilOp s, cirOp_iterate_seventeen s, cilOp_iterate_seventeen s,
    ?_, ?_⟩
  · exact congrArg (fun v => { s with ac := v }) BitVec.not_not
  · exact congrArg (fun b => { s with e := b }) BitVec.not_not

end Sys2Proof.Machine

/-! PROOFS, family 42_register_reference.md. The register-reference instructions from boundary to boundary. -/

namespace Sys2Proof.Machine

/-! ### Four micro-steps of a register-reference word (R175, 70_reset_and_hazards.md R294) -/

theorem regRefOp_sc (i : Instr) (s : State) : (regRefOp i s).sc = s.sc := by cases i <;> rfl

/-- No operation reads SC or writes it. -/
theorem regRefOp_with_sc (i : Instr) (s : State) (c : Bits3) :
    regRefOp i { s with sc := c } = { regRefOp i s with sc := c } := by
  cases i <;> rfl

/-- The three micro-steps of the fetch, and T3 with the instruction's operation. -/
theorem AboutToRun.runSteps_regRef {s t : State} {i : Instr} {mask low : SelField} (h : AboutToRun s i)
    (hi : encode i = encodeRegRef mask low) (ht : regRefOp i (fetched s (encode i)) = t) : runSteps 4 s = .next t := by
  obtain ⟨hb, hwf, hw⟩ := h
  have hd : opcodeOf (encode i) = 7 := by rw [hi]; exact opcodeOf_joinWord _ _ _
  have hbit : ibitOf (encode i) = 0 := by rw [hi]; exact ibitOf_joinWord _ _ _
  have hop : { regRefOp (decode (encode i)) { fetched s (encode i) with sc := 3 } with sc := 0 }
      = { t with sc := 0 } := by
    rw [decodeOfEncodeIsIdentity i hwf, regRefOp_with_sc, ht]
  have hT3 : MicroStep { fetched s (encode i) with sc := 3 } { t with sc := 0 } := hop ▸ .regRef rfl hd hbit
  have h0 : t.sc = 0 := by rw [← ht, regRefOp_sc]; exact hb.2
  exact runSteps_snoc_of_clear_sc (runSteps_fetch hb hw) hb.1 hT3 h0

/-- A skip after the fetch passes one word more (R288). -/
theorem skipIf_fetched (s : State) (w : Word) {c : Bool} {p : Prop} [Decidable p] (h : c = true ↔ p) :
    (fetched s w).skipIf c = { fetched s w with pc := if p then s.pc + 2 else s.pc + 1 } := by
  have htwo : s.pc + 2 = s.pc + 1 + 1 := (BitVec.add_assoc s.pc 1 1).symm
  rw [htwo]
  exact (fetched s w).skipIf_eq_of_iff h

/-- Settles O36: each operation's equation, in the state the fetch leaves. -/
theorem registerReferenceInstructions : Obligations.RegisterReferenceInstructions := by
  intro s low
  refine ⟨fun h => h.runSteps_regRef rfl rfl, fun h => h.runSteps_regRef rfl rfl,
    fun h => h.runSteps_regRef rfl (cmaOp_eq _), fun h => h.runSteps_regRef rfl (cmeOp_eq _),
    fun h => h.runSteps_regRef rfl (cirOp_eq _), fun h => h.runSteps_regRef rfl (cilOp_eq _),
    fun h => h.runSteps_regRef rfl (incOp_eq _), fun h => h.runSteps_regRef rfl ?_, fun h => h.runSteps_regRef rfl ?_,
    fun h => h.runSteps_regRef rfl ?_, fun h => h.runSteps_regRef rfl ?_,
    fun h => h.runSteps_regRef rfl rfl, fun h => h.runSteps_regRef rfl rfl⟩
  · exact skipIf_fetched s _ (isPositive_iff s.ac)
  · exact (skipIf_fetched s _ (isNegative_iff s.ac)).trans (by simp only [← Nat.not_lt, ite_not])
  · exact skipIf_fetched s _ (isZeroWord_iff s.ac)
  · exact skipIf_fetched s _ (isZeroBit_iff s.e)

end Sys2Proof.Machine

/-! PROOFS, family 43_io_group.md. The input-output group: every row is one micro-step, which faults at T3 and never goes
on. -/

namespace Sys2Proof.Machine

/-! ### The seven rows (30_encoding.md R98, R191) -/

/-- Every input-output row, whatever its low bits, is the micro-step of the group. -/
theorem exec_inOutRow {low : SelField} {i : Instr}
    (hi : i ∈ [Instr.inp low, .out low, .ski low, .sko low, .ion low, .iof low, .ioNone low]) (s : State) :
    exec i s = inOutStep s := by
  simp only [List.mem_cons, List.not_mem_nil, or_false] at hi
  rcases hi with rfl | rfl | rfl | rfl | rfl | rfl | rfl <;> rfl

theorem inOutStep_T3 {s : State} (h : s.sc = 3) : inOutStep s = .fault (.ioNotImplemented s.ir) := if_pos h

/-- Settles O37: each row is the group's micro-step. -/
theorem inputOutputRowsStop : Obligations.InputOutputRowsStop := by
  intro low s i hi
  rw [exec_inOutRow hi]
  exact ⟨inOutStep_T3, inOutStep_ne_next s⟩

/-! ### From the fetch to the fault record (R191, 60_exceptions.md R250, R259) -/

/-- The input-output words are those from 0xF000 on (R97). -/
theorem opcodeOf_and_ibitOf_of_inOut {w : Word} (h : 0xF000 ≤ w.toNat) : opcodeOf w = 7 ∧ ibitOf w = 1 := by
  have hd : (w.toNat >>> 12) % 8 = 7 := by rw [Nat.shiftRight_eq_div_pow]; omega
  have hi : (w.toNat >>> 15) % 2 = 1 := by rw [Nat.shiftRight_eq_div_pow]; omega
  exact ⟨BitVec.eq_of_toNat_eq hd, BitVec.eq_of_toNat_eq hi⟩

/-- T3 of an input-output word in IR is the group's fault (R191, R253). -/
theorem step_inOut_T3 {s : State} (hr : Running s) (h : s.sc = 3) (hd : opcodeOf s.ir = 7) (hi : ibitOf s.ir = 1) :
    step s = .fault (.ioNotImplemented s.ir) := by
  rw [step_from_T3 hr (by simp [h]), exec_inOut hd hi, inOutStep_T3 h]

/-- After a fault the host finds the state before the micro-step with the fault recorded: a machine that faults had no
fault recorded (R121, R250). -/
theorem hostStep_of_step_fault {s : State} {f : Fault} (h : step s = .fault f) :
    hostStep s = { s with fault := some f } := by
  obtain ⟨-, hnone⟩ := running_of_step_fault h
  have hhost : hostStep s = s.recordFault f := by rw [hostStep, h]
  rw [hhost, State.recordFault, hnone]
  rfl

/-- Settles O38: the fetch leaves the word in IR at T3, and there the group's micro-step faults. -/
theorem inputOutputWordFaultsAtT3 : Obligations.InputOutputWordFaultsAtT3 := by
  intro s w hb hw hio
  obtain ⟨hd, hi⟩ := opcodeOf_and_ibitOf_of_inOut hio
  have hstep : step { fetched s w with indFlag := 1, sc := 3 } = .fault (.ioNotImplemented w) :=
    step_inOut_T3 hb.1 rfl hd hi
  refine ⟨_, ?_, rfl, hstep, hostStep_of_step_fault hstep⟩
  rw [← hi]
  exact runSteps_fetch hb hw

end Sys2Proof.Machine

/-! PROOFS, family 44_assembler.md. The assembler and the loader: the words of the mnemonics are the encoder's words, what
each pass can answer, where the text ends, and the memory after a load. -/

namespace Sys2Proof.Machine.Assembler

/-! ### The words of the mnemonics (44_assembler.md R221 to R223, R235) -/

/-- A memory-reference mnemonic's instruction in the encoder's own fields. -/
theorem encode_memInstr (op : MemOp) (mode : AddrMode) (addr : Addr) :
    encode (memInstr op mode addr) = encodeMemRef (BitVec.ofNat 3 (opcodeValue op)) mode addr := by
  cases op <;> rfl

theorem memInstr_wellFormed (op : MemOp) (mode : AddrMode) (addr : Addr) :
    (memInstr op mode addr).wellFormed = true := by
  cases op <;> rfl

/-- The indirect marker 0x8000 is the mode bit moved to bit 15 (R93, R221). -/
theorem memWord_eq_or (op : MemOp) (a : Nat) (mode : AddrMode) :
    memWord op a mode = (BitVec.ofNat 16 (opcodeValue op) <<< 12) ||| (BitVec.ofNat 16 a &&& (0xFFF : Word))
      ||| ((ibitOfMode mode).setWidth 16 <<< 15) := by
  cases mode <;> rfl

theorem setWidth_opcodeValue (op : MemOp) :
    (BitVec.ofNat 3 (opcodeValue op)).setWidth 16 = BitVec.ofNat 16 (opcodeValue op) := by
  cases op <;> rfl

/-- The mask 0xFFF keeps the address modulo 4096. -/
theorem and_addressMask (a : Nat) : BitVec.ofNat 16 a &&& 0xFFF = (BitVec.ofNat 12 a).setWidth 16 := by
  refine BitVec.eq_of_toNat_eq ?_
  have hmask : a % 2 ^ 16 &&& (2 ^ 12 - 1) = a % 2 ^ 16 % 2 ^ 12 := Nat.and_two_pow_sub_one_eq_mod _ _
  rw [BitVec.toNat_and, BitVec.toNat_setWidth, BitVec.toNat_ofNat, BitVec.toNat_ofNat]
  exact hmask.trans (by omega)

/-- The fields of R90 are disjoint, so joining them is the "or" of the shifted fields. -/
theorem joinWord_eq_or (i : Bit) (d : Bits3) (f : BitVec 12) :
    joinWord i d f = (d.setWidth 16 <<< 12) ||| f.setWidth 16 ||| (i.setWidth 16 <<< 15) := by
  refine BitVec.eq_of_getLsbD_eq fun j hj => ?_
  rw [getLsbD_joinWord]
  split
  next h => simp [hj, h, show j < 15 by omega, -BitVec.getLsbD_eq_getElem]
  next h =>
    have hf : f.getLsbD j = false := BitVec.getLsbD_of_ge f j (by omega)
    split
    next h2 => simp [hj, h, h2, hf, show j - 12 < 16 by omega, -BitVec.getLsbD_eq_getElem]
    next h2 =>
      have hd : d.getLsbD (j - 12) = false := BitVec.getLsbD_of_ge d (j - 12) (by omega)
      simp [hj, h, h2, hf, hd, show j - 15 < 16 by omega, -BitVec.getLsbD_eq_getElem]

theorem memWord_eq_encode (op : MemOp) (a : Nat) (mode : AddrMode) :
    memWord op a mode = encode (memInstr op mode (BitVec.ofNat 12 a)) := by
  rw [memWord_eq_or, encode_memInstr, encodeMemRef, joinWord_eq_or, setWidth_opcodeValue, and_addressMask]

theorem regWord_eq_encode (op : RegOp) : regWord op = encode (regInstr op) := by
  cases op <;> rfl

theorem regInstr_wellFormed (op : RegOp) : (regInstr op).wellFormed = true := by
  cases op <;> rfl

theorem ioWord_eq_encode (op : IoOp) : ioWord op = encode (ioInstr op) := by
  cases op <;> rfl

theorem ioInstr_wellFormed (op : IoOp) : (ioInstr op).wellFormed = true := by
  cases op <;> rfl

/-- Settles O55: each emitted word is the encoder's word of a well-formed instruction, which decodes to it (O1). -/
theorem assemblerAgreesWithDecoder : Obligations.AssemblerAgreesWithDecoder := by
  refine ⟨fun op a mode _ => ?_, fun op => ?_, fun op => ?_⟩
  · rw [memWord_eq_encode]
    exact decodeOfEncodeIsIdentity _ (memInstr_wellFormed op mode _)
  · rw [regWord_eq_encode]
    exact decodeOfEncodeIsIdentity _ (regInstr_wellFormed op)
  · rw [ioWord_eq_encode]
    exact decodeOfEncodeIsIdentity _ (ioInstr_wellFormed op)

/-! ### Pass 1 (R212 to R215) -/

theorem lookup_cons_eq_none {l x : Token} {a : Nat} {tab : SymTab} :
    lookup ((l, a) :: tab) x = none ↔ l ≠ x ∧ lookup tab x = none := by
  by_cases h : l = x <;> simp [lookup, h]

/-- Pass 1 goes on exactly while each label is new: to the table it began with and to the labels of the other lines. -/
theorem pass1_ok_iff (sts : List Stmt) (lc : Nat) (tab : SymTab) :
    (∃ tab', pass1 sts lc tab = .ok tab') ↔ (labelsOf sts).Nodup ∧ ∀ l ∈ labelsOf sts, lookup tab l = none := by
  fun_induction pass1 sts lc tab with
  | case1 lc tab => simp [labelsOf]
  | case2 n sts lc tab ih => simpa only [labelsOf] using ih
  | case3 what sts lc tab ih => simpa only [labelsOf] using ih
  | case4 l what sts lc tab a hl => simp [labelsOf, hl]
  | case5 l what sts lc tab hl ih =>
    simp only [ih, labelsOf, List.nodup_cons, List.forall_mem_cons, hl, lookup_cons_eq_none, true_and]
    constructor
    · rintro ⟨hnodup, hnew⟩
      exact ⟨⟨fun hmem => (hnew l hmem).1 rfl, hnodup⟩, fun x hx => (hnew x hx).2⟩
    · rintro ⟨⟨hmem, hnodup⟩, hnew⟩
      exact ⟨hnodup, fun x hx => ⟨fun h => hmem (h ▸ hx), hnew x hx⟩⟩

/-- Pass 1 has one error (R213, R229). -/
theorem pass1_error {sts : List Stmt} {lc : Nat} {tab : SymTab} {e : AsmError} (h : pass1 sts lc tab = .error e) :
    e = .duplicateLabel := by
  fun_induction pass1 sts lc tab with
  | case1 lc tab => cases h
  | case2 n sts lc tab ih => exact ih h
  | case3 what sts lc tab ih => exact ih h
  | case4 l what sts lc tab a hl => exact (Except.error.inj h).symm
  | case5 l what sts lc tab hl ih => exact ih h

theorem pass1_of_nodup {sts : List Stmt} (h : (labelsOf sts).Nodup) : ∃ tab, pass1 sts 0 [] = .ok tab :=
  (pass1_ok_iff sts 0 []).2 ⟨h, fun _ _ => rfl⟩

theorem pass1_of_not_nodup {sts : List Stmt} (h : ¬ (labelsOf sts).Nodup) : pass1 sts 0 [] = .error .duplicateLabel := by
  cases hp : pass1 sts 0 [] with
  | ok tab => exact absurd ((pass1_ok_iff sts 0 []).1 ⟨tab, hp⟩).1 h
  | error e => rw [pass1_error hp]

/-! ### Pass 2 (R217, R224 to R227) -/

theorem encodeEmit_ne_duplicateLabel (tab : SymTab) (what : Emit) : encodeEmit tab what ≠ .error .duplicateLabel := by
  fun_cases encodeEmit tab what <;> simp

/-- The duplicate label is no error of pass 2 (R229). -/
theorem pass2_ne_duplicateLabel (tab : SymTab) (sts : List Stmt) (lc : Nat) :
    (pass2 tab sts lc).2 ≠ some .duplicateLabel := by
  fun_induction pass2 tab sts lc with
  | case1 lc => simp
  | case2 n sts lc ih => exact ih
  | case3 l what sts lc e he => exact fun h => encodeEmit_ne_duplicateLabel tab what (he.trans (by simpa using h))
  | case4 l what sts lc w hw hlc => simp
  | case5 l what sts lc w hw hlc ih => exact ih

/-- Every emitted word has an address of the memory, also when an error follows (R226). -/
theorem pass2_lt_memWords (tab : SymTab) (sts : List Stmt) (lc : Nat) :
    ∀ c ∈ (pass2 tab sts lc).1, c.1 < Config.memWords := by
  fun_induction pass2 tab sts lc with
  | case1 lc => simp
  | case2 n sts lc ih => exact ih
  | case3 l what sts lc e he => simp
  | case4 l what sts lc w hw hlc => simp
  | case5 l what sts lc w hw hlc ih => exact List.forall_mem_cons.2 ⟨Nat.not_le.1 hlc, ih⟩

/-- A word's line over which pass 2 has no error gives its word at the counter, before the words of the lines after it. -/
theorem pass2_emit_of_ok {tab : SymTab} {label : Option Token} {what : Emit} {sts : List Stmt} {lc : Nat}
    (h : (pass2 tab (.emit label what :: sts) lc).2 = none) :
    ∃ w, pass2 tab (.emit label what :: sts) lc
      = ((lc, w) :: (pass2 tab sts (lc + 1)).1, (pass2 tab sts (lc + 1)).2) := by
  rw [pass2] at h ⊢
  split at h
  · cases h
  next w hw =>
    split at h
    · cases h
    next hlc => exact ⟨w, by simp [hlc]⟩

/-- The two passes count alike: where pass 2 ends without an error, it has emitted a word at the address of each label that
pass 1 added to its table (R214, R217, R234). `tab` is pass 1's table so far, `full` the one pass 2 reads. -/
theorem pass2_emits_at_labels (full : SymTab) {sts : List Stmt} {lc : Nat} {tab tab' : SymTab}
    (h1 : pass1 sts lc tab = .ok tab') (h2 : (pass2 full sts lc).2 = none) :
    ∀ c ∈ tab', c ∈ tab ∨ ∃ w, (c.2, w) ∈ (pass2 full sts lc).1 := by
  fun_induction pass1 sts lc tab with
  | case1 lc tab =>
    cases h1
    exact fun c hc => .inl hc
  | case2 n sts lc tab ih => exact ih h1 h2
  | case3 what sts lc tab ih =>
    obtain ⟨w, hw⟩ := pass2_emit_of_ok h2
    rw [hw] at h2 ⊢
    exact fun c hc => (ih h1 h2 c hc).imp_right fun ⟨v, hv⟩ => ⟨v, List.mem_cons_of_mem _ hv⟩
  | case4 l what sts lc tab a hl => cases h1
  | case5 l what sts lc tab hl ih =>
    obtain ⟨w, hw⟩ := pass2_emit_of_ok h2
    rw [hw] at h2 ⊢
    intro c hc
    rcases ih h1 h2 c hc with hmem | ⟨v, hv⟩
    · rcases List.mem_cons.1 hmem with rfl | hold
      · exact .inr ⟨w, List.mem_cons_self⟩
      · exact .inl hold
    · exact .inr ⟨v, List.mem_cons_of_mem _ hv⟩

/-! ### Both passes (R202, R229, R230) -/

/-- Where the assembler answers an image, neither pass had an error, and the image is what pass 2 emitted. -/
theorem assembleStmts_ok {sts : List Stmt} {writes : List Cell} {entry : Nat}
    (h : assembleStmts sts = .ok writes entry) :
    ∃ tab, pass1 sts 0 [] = .ok tab ∧ pass2 tab sts 0 = (writes, none) := by
  unfold assembleStmts at h
  split at h
  · cases h
  · split at h
    · cases h
    next tab htab =>
      split at h
      next ws hws =>
        cases h
        exact ⟨tab, htab, hws⟩
      · cases h

theorem assembleStmts_ne_duplicateLabel {sts : List Stmt} {tab : SymTab} (h : pass1 sts 0 [] = .ok tab) :
    assembleStmts sts ≠ .error .duplicateLabel := by
  intro herr
  unfold assembleStmts at herr
  rw [h] at herr
  split at herr
  · cases herr
  · dsimp only at herr
    split at herr
    · cases herr
    next e he =>
      cases herr
      exact pass2_ne_duplicateLabel tab sts 0 (congrArg Prod.snd he)

/-- Settles O56: the two passes count alike, and pass 2 emits inside the memory only. -/
theorem labelsNameEmittedWords : Obligations.LabelsNameEmittedWords := by
  intro sts writes entry h
  obtain ⟨tab, h1, h2⟩ := assembleStmts_ok h
  have hlt := pass2_lt_memWords tab sts 0
  have hlab := pass2_emits_at_labels tab h1 (congrArg Prod.snd h2)
  rw [h2] at hlt hlab
  refine ⟨hlt, tab, h1, fun l a hmem => ?_⟩
  obtain ⟨w, hw⟩ := (hlab (l, a) hmem).resolve_left List.not_mem_nil
  exact ⟨hlt _ hw, w, hw⟩

/-- Settles O57: pass 1 decides it before pass 2 begins, and pass 2 has no such error. -/
theorem duplicateLabelsExactly : Obligations.DuplicateLabelsExactly := by
  intro sts horg
  obtain ⟨entry, hentry⟩ := Option.ne_none_iff_exists'.1 horg
  refine ⟨⟨fun herr hnodup => ?_, fun hdup => ?_⟩, fun hdup => ?_⟩
  · obtain ⟨tab, htab⟩ := pass1_of_nodup hnodup
    exact assembleStmts_ne_duplicateLabel htab herr
  · simp [assembleStmts, hentry, pass1_of_not_nodup hdup]
  · simp [emittedStmts, pass1_of_not_nodup hdup]

/-! ### The end of the text (R216) -/

/-- Settles O58: by induction on the lines before the END; at the END both sides answer as at the end of the text. -/
theorem linesAfterEndAreNotRead : Obligations.LinesAfterEndAreNotRead := by
  intro seenOrg lines rest line hend
  induction lines generalizing seenOrg with
  | nil => simp only [List.nil_append, parseLines, hend]
  | cons first lines ih => simp only [List.cons_append, parseLines, ih]

/-! ### The image in memory (R201, R232, R233) -/

/-- The last of the writes that name a cell decides it. -/
theorem read_applyWrites (ws : List Cell) (m : Memory) (a : Nat) :
    (applyWrites ws m).read a =
      ((ws.reverse.find? fun c => decide (c.1 = a)).map Prod.snd).or (m.read a) := by
  induction ws generalizing m with
  | nil => rfl
  | cons c ws ih =>
    obtain ⟨b, w⟩ := c
    rw [applyWrites, ih, Memory.read_write, List.reverse_cons, List.find?_append]
    cases ws.reverse.find? fun c => decide (c.1 = a) with
    | some d => rfl
    | none =>
      rcases eq_or_ne b a with rfl | h
      · simp
      · simp [h, h.symm]

theorem load_loaded {text : String} {s t : State} {entry : Nat} (h : load text s = .loaded t entry) :
    ∃ writes, assemble text = .ok writes entry ∧ t = { s with mem := applyWrites writes s.mem } := by
  unfold load at h
  split at h
  · cases h
  · split at h
    next writes entry' hasm =>
      cases h
      exact ⟨writes, hasm, rfl⟩
    · cases h
    · cases h

/-- Settles O59: a load applies the writes of the image in order, and of two writes to a cell the later one stays. -/
theorem loadWritesTheImage : Obligations.LoadWritesTheImage := by
  intro text s t entry h
  obtain ⟨writes, hasm, rfl⟩ := load_loaded h
  refine ⟨writes, hasm, rfl, fun a => ?_⟩
  rw [read_applyWrites]
  cases writes.reverse.find? fun c => decide (c.1 = a) <;> rfl

end Sys2Proof.Machine.Assembler

/-! PROOFS, family 60_exceptions.md. The rows of the (T, D) table that fault, as one inversion of `step`, and the machine
that stands still once a fault is recorded. -/

namespace Sys2Proof.Machine

/-! ### What a micro-step that faults has met (60_exceptions.md R252, R253, R255) -/

/-- The faults of a running machine, one constructor per place that raises one: the three reads of an unset cell (R252) and
T3 of an input-output word (R253). It is to faults what `MicroStep` is to next states. -/
inductive MicroFault (s : State) : Fault → Prop where
  | fetch (h : s.sc = 1) (hv : s.mem.read s.ar.toNat = none) : MicroFault s (.uninitializedRead s.ar)
  | pointer (h : s.sc = 3) (hd : opcodeOf s.ir ≠ 7) (hi : ibitOf s.ir = 1) (hv : s.mem.read s.ar.toNat = none) :
      MicroFault s (.uninitializedRead s.ar)
  | operand (h : s.sc = 4) (hd : opcodeOf s.ir = 0 ∨ opcodeOf s.ir = 1 ∨ opcodeOf s.ir = 2 ∨ opcodeOf s.ir = 6)
      (hv : s.mem.read s.ar.toNat = none) : MicroFault s (.uninitializedRead s.ar)
  | inOut (h : s.sc = 3) (hd : opcodeOf s.ir = 7) (hi : ibitOf s.ir = 1) : MicroFault s (.ioNotImplemented s.ir)

theorem step_T4_unset_operand {s : State} (hr : Running s) (h : s.sc = 4)
    (hd : opcodeOf s.ir = 0 ∨ opcodeOf s.ir = 1 ∨ opcodeOf s.ir = 2 ∨ opcodeOf s.ir = 6)
    (hv : s.mem.read s.ar.toNat = none) : step s = .fault (.uninitializedRead s.ar) := by
  rw [step_from_T3 hr (by simp [h]), exec_load_T4 h hd, loadOperand_none hv]

theorem MicroFault.step_eq {s : State} {f : Fault} (hr : Running s) (hm : MicroFault s f) : step s = .fault f := by
  cases hm with
  | fetch h hv => exact (step_T1 hr h).trans (withRead_none hv)
  | pointer h hd hi hv => exact step_T3_unset_pointer hr h hd hi hv
  | operand h hd hv => exact step_T4_unset_operand hr h hd hv
  | inOut h hd hi => exact step_inOut_T3 hr h hd hi

theorem dereference_fault {mode : AddrMode} {s : State} {f : Fault} (h : dereference .fault mode s = .fault f) :
    mode = .indirect ∧ f = .uninitializedRead s.ar ∧ s.mem.read s.ar.toNat = none := by
  cases mode with
  | direct => cases h
  | indirect =>
    obtain ⟨hf, hv, -⟩ := withRead_fault h
    exact ⟨rfl, hf, hv⟩

/-- The row T3: a pointer read, or the input-output group (R127 to R129). -/
theorem MicroFault.of_atT3 {s : State} {f : Fault} (h : s.sc = 3) (hs : Schedule.atT3 .fault s = .fault f) :
    MicroFault s f := by
  rw [Schedule.atT3] at hs
  split_ifs at hs with hd hi
  · have hmode : ∀ b : Bit, modeOf b = .indirect → b = 1 := by decide
    obtain ⟨hm, rfl, hv⟩ := dereference_fault hs
    exact .pointer h hd (hmode _ hm) hv
  · cases hs
    exact .inOut h (not_not.1 hd) ((bit_ne_zero_iff _).1 hi)

/-- The rows T4: only the four operand reads can fault (R141 to R147). -/
theorem MicroFault.of_atT4 {s : State} {f : Fault} (h : s.sc = 4) (hs : Schedule.atT4 .fault s = .fault f) :
    MicroFault s f := by
  rw [Schedule.atT4] at hs
  split_ifs at hs with hd
  obtain ⟨rfl, hv, -⟩ := withRead_fault hs
  exact .operand h hd hv

theorem atT5_ne_fault (s : State) (f : Fault) : Schedule.atT5 s ≠ .fault f := by
  rw [Schedule.atT5]; split_ifs <;> simp

theorem atT6_ne_fault (s : State) (f : Fault) : Schedule.atT6 s ≠ .fault f := by
  rw [Schedule.atT6]; split_ifs <;> simp

/-- THE inversion of a fault: a micro-step faults exactly when the machine runs and stands at one of the four places. -/
theorem step_eq_fault_iff {s : State} {f : Fault} : step s = .fault f ↔ Running s ∧ MicroFault s f := by
  refine ⟨fun hs => ?_, fun ⟨hr, hm⟩ => hm.step_eq hr⟩
  have hr := running_of_step_fault hs
  refine ⟨hr, ?_⟩
  rcases opcode_cases s.sc with h | h | h | h | h | h | h | h
  · simp [step_T0 hr h, fetchT0] at hs
  · rw [step_T1 hr h] at hs
    obtain ⟨rfl, hv, -⟩ := withRead_fault hs
    exact .fetch h hv
  · simp [step_T2 hr h, fetchT2] at hs
  · rw [step_from_T3 hr (by simp [h]), exec_eq_atT3 h] at hs
    exact .of_atT3 h hs
  · rw [step_from_T3 hr (by simp [h]), exec_eq_atT4 h] at hs
    exact .of_atT4 h hs
  · rw [step_from_T3 hr (by simp [h]), exec_eq_atT5 h] at hs
    exact absurd hs (atT5_ne_fault s f)
  · rw [step_from_T3 hr (by simp [h]), exec_eq_atT6 h] at hs
    exact absurd hs (atT6_ne_fault s f)
  · rw [step_of_not_controlReachable hr ((not_controlReachable_iff s).2 (.inr (.inr (.inr h))))] at hs
    cases hs

/-- Settles O39: of the four places only T3 of an input-output word raises this fault. -/
theorem ioNotImplementedExactly : Obligations.IoNotImplementedExactly := by
  intro s w
  rw [step_eq_fault_iff]
  refine and_congr_right fun _ => ⟨fun hm => ?_, ?_⟩
  · cases hm with
    | inOut h hd hi => exact ⟨h, hd, hi, rfl⟩
  · rintro ⟨h, hd, hi, rfl⟩
    exact .inOut h hd hi

/-- Settles O40: the other three places are the reads of an unset cell at AR. -/
theorem uninitializedReadExactly : Obligations.UninitializedReadExactly := by
  intro s a
  rw [step_eq_fault_iff]
  refine and_congr_right fun _ => ⟨fun hm => ?_, ?_⟩
  · cases hm with
    | fetch h hv => exact ⟨rfl, hv, .inl h⟩
    | pointer h hd hi hv => exact ⟨rfl, hv, .inr (.inl ⟨h, hd, hi⟩)⟩
    | operand h hd hv => exact ⟨rfl, hv, .inr (.inr ⟨h, hd⟩)⟩
  · rintro ⟨rfl, hv, h | ⟨h, hd, hi⟩ | ⟨h, hd⟩⟩
    · exact .fetch h hv
    · exact .pointer h hd hi hv
    · exact .operand h hd hv

/-! ### After a fault (10_state.md R46, 40_fetch_decode.md R121, 60_exceptions.md R250) -/

theorem step_of_fault_recorded {s : State} (h : s.fault ≠ none) : step s = .refused .faultRecorded := if_pos h

/-- A machine with a fault recorded stands still under the host's step. -/
theorem hostStep_of_fault_recorded {s : State} (h : s.fault ≠ none) : hostStep s = s := by
  rw [hostStep, step_of_fault_recorded h]

/-- Settles O41: the host's first step records the fault, and the state it leaves is a fixed point of the next ones. -/
theorem faultKeepsTheStateForGood : Obligations.FaultKeepsTheStateForGood := by
  intro s f hs
  have hrec : ({ s with fault := some f } : State).fault ≠ none := Option.some_ne_none f
  have hhost := hostStep_of_step_fault hs
  refine ⟨hhost, ?_, fun n => ?_⟩
  · rw [hhost]; exact step_of_fault_recorded hrec
  · rw [Function.iterate_succ_apply, hhost]
    exact Function.iterate_fixed (hostStep_of_fault_recorded hrec) n

end Sys2Proof.Machine

/-! PROOFS, family 70_reset_and_hazards.md. The moves of the host keep the machine's invariant: a write and a load change
memory only, `run` starts at a boundary, and a step is a micro-step, a fault recorded or nothing. -/

namespace Sys2Proof.Machine

/-! ### What each move of the host can answer (R284, R132, R250) -/

/-- A host write that is allowed names a cell of the memory and changes nothing but memory (R284). -/
theorem hostWrite_ok {s t : State} {a : Nat} {v : Word} (h : hostWrite s a v = .ok t) :
    a < Config.memWords ∧ t = { s with mem := s.mem.write a v } := by
  rw [hostWrite] at h
  split_ifs at h with hl ha
  exact ⟨ha, (Except.ok.inj h).symm⟩

theorem hostStep_of_step_next {s t : State} (h : step s = .next t) : hostStep s = t := by
  rw [hostStep, h]

theorem hostStep_of_step_refused {s : State} {r : Refusal} (h : step s = .refused r) : hostStep s = s := by
  rw [hostStep, h]

/-- An assembled image lies inside the memory (44_assembler.md R226). -/
theorem Assembler.assemble_lt_memWords {text : String} {writes : List Cell} {entry : Nat}
    (h : Assembler.assemble text = .ok writes entry) : ∀ c ∈ writes, c.1 < Config.memWords := by
  rw [Assembler.assemble, Assembler.assembleChars] at h
  split at h
  · cases h
  · exact (Assembler.labelsNameEmittedWords _ _ _ h).1

/-! ### The invariant under the host's moves -/

/-- Of the invariant's parts only the first reads memory. -/
theorem MachineInv.with_mem {s : State} (hs : MachineInv s) {m : Memory} (hm : m.wf) :
    MachineInv { s with mem := m } := by
  obtain ⟨-, hrest⟩ := hs
  exact ⟨hm, hrest⟩

/-- No part of the invariant reads the fault record. -/
theorem MachineInv.with_fault {s : State} (hs : MachineInv s) (f : Option Fault) :
    MachineInv { s with fault := f } := hs

/-- `run` starts a machine that stands at a boundary, so PC may be written without breaking what AR holds after T0. -/
theorem MachineInv.of_startRun {s t : State} {entry : Nat} (hs : MachineInv s) (h : startRun entry s = .ok t) :
    MachineInv t := by
  obtain ⟨-, -, hsc, -, rfl⟩ := (runSeedsProgramCounterAndFlag s t entry).1 h
  obtain ⟨hwf, hctl, hind, -, -⟩ := hs
  exact ⟨hwf, hctl, hind, by simp [AddressAgrees, hsc], by simp [RunAgrees]⟩

theorem MachineInv.of_hostStep {s : State} (hs : MachineInv s) : MachineInv (hostStep s) := by
  cases h : step s with
  | next t => rw [hostStep_of_step_next h]; exact everyStepKeepsTheInvariant s t hs h
  | fault f => rw [hostStep_of_step_fault h]; exact hs.with_fault (some f)
  | refused r => rwa [hostStep_of_step_refused h]

/-- Settles O19: a write and a load put words inside the memory only, `run` leaves SC at 0, and the host's step is the
micro-step of O17 or leaves the machine as it was but for the fault record. -/
theorem hostMovesKeepTheInvariant : Obligations.HostMovesKeepTheInvariant := by
  intro s hs
  have hwf : s.mem.wf := hs.1
  refine ⟨fun a v t h => ?_, fun text t entry h => ?_, fun entry t h => hs.of_startRun h, hs.of_hostStep⟩
  · obtain ⟨ha, rfl⟩ := hostWrite_ok h
    exact hs.with_mem (Memory.wf_write hwf ha v)
  · obtain ⟨writes, hasm, rfl⟩ := Assembler.load_loaded h
    exact hs.with_mem (applyWrites_wf (Assembler.assemble_lt_memWords hasm) hwf)

end Sys2Proof.Machine
